-- ==== Sys2Proof/Word.lean ====
section
/-! DEFINITION. Word types of the CORE: what the spec treats as bits (spec/00_scope.md R3, R10, R11) and the two
names of four-bit numbers it uses as indexes. -/

namespace Sys2Proof

/-- A four-bit field of an opcode (00_scope.md R18 "Nibble"). -/
abbrev Nibble := BitVec 4

/-- A byte: a general register, a timer, a cell of memory (00_scope.md R3). -/
abbrev Byte := BitVec 8

/-- A twelve-bit address operand `nnn` (30_encoding.md R112). -/
abbrev Addr12 := BitVec 12

/-- A 16-bit word: an opcode, `pc`, `I`, a stack slot (10_state.md R22, R25, R26). -/
abbrev Word := BitVec 16

/-- A register index: every index comes from a four-bit field, so it is in range (10_state.md R20). -/
abbrev Reg := Fin 16

/-- VF, the flag register `V[15]` (10_state.md R21). -/
abbrev VF : Reg := 15

/-- A key code 0x0 to 0xF (00_scope.md R18 "Key code"). -/
abbrev Key := Fin 16

end Sys2Proof
end

