-- ==== Sys2Proof/Config.lean ====
section
/-! DEFINITION. What an implementation fixes, and the free values.
The open parameters of spec/00_scope.md R9 ("the model takes each as an argument") are plain data, a `Params` that
State carries and no step changes; the free values are constants with no body, so nothing can be proved of them. -/

namespace Sys2Proof

/-- TIMER_MODE (00_scope.md R9; 60_exceptions.md R251, R252). -/
inductive TimerMode where
  | coupled
  | hostScheduled
  deriving DecidableEq, Repr

/-- SHIFT_SRC (00_scope.md R9; 41_alu.md R161, R162): which register the shifts read. -/
inductive ShiftSrc where
  | vy
  | vx
  deriving DecidableEq, Repr

/-- One font glyph: five bytes, row 0 first (10_state.md R38). -/
abbrev Glyph := Vector Byte 5

/-- FONT: sixteen glyphs, stored contiguously (10_state.md R38). -/
abbrev Font := Vector Glyph 16

/-- The open parameters of the core (00_scope.md R9). -/
structure Params where
  timerMode : TimerMode
  shiftSrc  : ShiftSrc
  font      : Font
  deriving DecidableEq, Repr

/-- The default FONT. PRESUMED: the table of 10_state.md R49, which the spec takes from the family and not from its
source (log entry 3). -/
def Font.default : Font :=
  #v[#v[0xF0, 0x90, 0x90, 0x90, 0xF0], #v[0x20, 0x60, 0x20, 0x20, 0x70],
     #v[0xF0, 0x10, 0xF0, 0x80, 0xF0], #v[0xF0, 0x10, 0xF0, 0x10, 0xF0],
     #v[0x90, 0x90, 0xF0, 0x10, 0x10], #v[0xF0, 0x80, 0xF0, 0x10, 0xF0],
     #v[0xF0, 0x80, 0xF0, 0x90, 0xF0], #v[0xF0, 0x10, 0x20, 0x40, 0x40],
     #v[0xF0, 0x90, 0xF0, 0x90, 0xF0], #v[0xF0, 0x90, 0xF0, 0x10, 0xF0],
     #v[0xF0, 0x90, 0xF0, 0x90, 0x90], #v[0xE0, 0x90, 0xE0, 0x90, 0xE0],
     #v[0xF0, 0x80, 0x80, 0x80, 0xF0], #v[0xE0, 0x90, 0x90, 0x90, 0xE0],
     #v[0xF0, 0x80, 0xF0, 0x80, 0xF0], #v[0xF0, 0x80, 0xF0, 0x80, 0x80]]

/-- The default parameters of 00_scope.md R9. -/
def Params.default : Params :=
  { timerMode := .coupled, shiftSrc := .vy, font := Font.default }

/-- Free value: the keys pressed at the n-th tick the host has not scheduled (10_state.md R55; log entry 5). -/
opaque Config.freeKeys : Nat → Vector Bool 16

/-- Free value: the exit signal given with them (10_state.md R55; log entry 5). -/
opaque Config.freeExit : Nat → Bool

/-- Free value: the random byte of that tick (10_state.md R56, decision D13; log entry 5). -/
opaque Config.freeRnd : Nat → Byte

/-- Free value: the draw among several pressed keys (44_keys_timers.md R223, decision D12; log entry 7). -/
opaque Config.freePick : Nat → Nat

/-- Free value: the timer decrements a HOST_SCHEDULED host makes before that tick (60_exceptions.md R252; log entry 5). -/
opaque Config.freeDecrements : Nat → Nat

end Sys2Proof
end

