-- ==== Sys2Proof/Syntax.lean ====
section
/-! DEFINITION. The instructions: one constructor per row of spec/opcode_table.json, in the table's order
(spec/30_encoding.md R103). Operands are unsigned fields taken as they stand (R112). -/

namespace Sys2Proof

/-- The 34 instructions of 30_encoding.md R103. `x` and `y` are register indices, `kk` an immediate byte, `nnn` a
twelve-bit address, `n` a count of sprite rows. -/
inductive Instr where
  | cls
  | ret
  | jp (nnn : Addr12)
  | call (nnn : Addr12)
  | seVxKk (x : Reg) (kk : Byte)
  | sneVxKk (x : Reg) (kk : Byte)
  | seVxVy (x y : Reg)
  | sneVxVy (x y : Reg)
  | ldVxKk (x : Reg) (kk : Byte)
  | addVxKk (x : Reg) (kk : Byte)
  | ldVxVy (x y : Reg)
  | orVxVy (x y : Reg)
  | andVxVy (x y : Reg)
  | xorVxVy (x y : Reg)
  | addVxVy (x y : Reg)
  | subVxVy (x y : Reg)
  | subnVxVy (x y : Reg)
  | shrVxVy (x y : Reg)
  | shlVxVy (x y : Reg)
  | ldI (nnn : Addr12)
  | jpV0 (nnn : Addr12)
  | rnd (x : Reg) (kk : Byte)
  | drw (x y : Reg) (n : Nat)
  | skp (x : Reg)
  | sknp (x : Reg)
  | ldVxDt (x : Reg)
  | ldVxK (x : Reg)
  | ldDtVx (x : Reg)
  | ldStVx (x : Reg)
  | addIVx (x : Reg)
  | ldFVx (x : Reg)
  | ldBVx (x : Reg)
  | ldMemVx (x : Reg)
  | ldVxMem (x : Reg)
  deriving DecidableEq, Repr

end Sys2Proof
end

