-- ==== Sys2Proof/WellFormed.lean ====
section
/-! DEFINITION. Which instruction terms are well formed: the ones an encoding exists for. Register indices, immediates
and addresses have the width of their fields in their types; the one operand that is a count, the number of sprite
rows, is checked here (spec/30_encoding.md R112: "`n` is a count 0-15"). -/

namespace Sys2Proof

/-- An instruction that some word encodes (30_encoding.md R112). -/
def Instr.wellFormed : Instr → Bool
  | .cls => true
  | .ret => true
  | .jp _ => true
  | .call _ => true
  | .seVxKk _ _ => true
  | .sneVxKk _ _ => true
  | .seVxVy _ _ => true
  | .sneVxVy _ _ => true
  | .ldVxKk _ _ => true
  | .addVxKk _ _ => true
  | .ldVxVy _ _ => true
  | .orVxVy _ _ => true
  | .andVxVy _ _ => true
  | .xorVxVy _ _ => true
  | .addVxVy _ _ => true
  | .subVxVy _ _ => true
  | .subnVxVy _ _ => true
  | .shrVxVy _ _ => true
  | .shlVxVy _ _ => true
  | .ldI _ => true
  | .jpV0 _ => true
  | .rnd _ _ => true
  | .drw _ _ n => decide (n ≤ 15)
  | .skp _ => true
  | .sknp _ => true
  | .ldVxDt _ => true
  | .ldVxK _ => true
  | .ldDtVx _ => true
  | .ldStVx _ => true
  | .addIVx _ => true
  | .ldFVx _ => true
  | .ldBVx _ => true
  | .ldMemVx _ => true
  | .ldVxMem _ => true

end Sys2Proof
end

