-- ==== Sys2Proof/Decode.lean ====
section
/-! DEFINITION. Decoding and encoding (spec/30_encoding.md). Every instruction is one 16-bit word (R100); its fields are
those of R101; the bit patterns are those of R103. PRESUMED: of the patterns the source gives only `4xkk` (R104), the
others are the family's, as the spec says itself (log entry 4). -/

namespace Sys2Proof

/-! ### Fields (30_encoding.md R101, 00_scope.md R16) -/

/-- `op[15:12]`, the major opcode. -/
def fieldMajor (op : Word) : Nibble := op.extractLsb' 12 4

/-- `x = op[11:8]`. -/
def fieldX (op : Word) : Reg := (op.extractLsb' 8 4).toFin

/-- `y = op[7:4]`. -/
def fieldY (op : Word) : Reg := (op.extractLsb' 4 4).toFin

/-- `n = op[3:0]`. -/
def fieldN (op : Word) : Nibble := op.extractLsb' 0 4

/-- `kk = op[7:0]`. -/
def fieldKk (op : Word) : Byte := op.extractLsb' 0 8

/-- `nnn = op[11:0]`. -/
def fieldNnn (op : Word) : Addr12 := op.extractLsb' 0 12

/-! ### The decoder -/

/-- Why a word is no instruction: one name for each class of 30_encoding.md R107. -/
inductive DecodeError where
  /-- `0x0000`-`0x0FFF` except `0x00E0` and `0x00EE`. -/
  | invalid0nnn
  /-- `0x5xyn` with `n != 0`. -/
  | invalid5xyn
  /-- `0x8xyn` with `n` in 8, 9, A, B, C, D, F. -/
  | invalid8xyn
  /-- `0x9xyn` with `n != 0`. -/
  | invalid9xyn
  /-- `0xExkk` with `kk` not in 9E, A1. -/
  | invalidExkk
  /-- `0xFxkk` with `kk` not in 07, 0A, 15, 18, 1E, 29, 33, 55, 65. -/
  | invalidFxkk
  deriving DecidableEq, Repr

/-- The `0nnn` group: every one of the 16 bits is checked (30_encoding.md R106, R108). -/
def decodeGroup0 (op : Word) : Except DecodeError Instr :=
  if op = 0x00E0 then .ok .cls else if op = 0x00EE then .ok .ret else .error .invalid0nnn

/-- The `8xyn` group (30_encoding.md R103 rows 11 to 19, R106). -/
def decodeGroup8 (op : Word) : Except DecodeError Instr :=
  match (fieldN op).toNat with
  | 0x0 => .ok (.ldVxVy (fieldX op) (fieldY op))
  | 0x1 => .ok (.orVxVy (fieldX op) (fieldY op))
  | 0x2 => .ok (.andVxVy (fieldX op) (fieldY op))
  | 0x3 => .ok (.xorVxVy (fieldX op) (fieldY op))
  | 0x4 => .ok (.addVxVy (fieldX op) (fieldY op))
  | 0x5 => .ok (.subVxVy (fieldX op) (fieldY op))
  | 0x6 => .ok (.shrVxVy (fieldX op) (fieldY op))
  | 0x7 => .ok (.subnVxVy (fieldX op) (fieldY op))
  | 0xE => .ok (.shlVxVy (fieldX op) (fieldY op))
  | _ => .error .invalid8xyn

/-- The `Exkk` group (30_encoding.md R103 rows 24 and 25, R106). -/
def decodeGroupE (op : Word) : Except DecodeError Instr :=
  if fieldKk op = 0x9E then .ok (.skp (fieldX op))
  else if fieldKk op = 0xA1 then .ok (.sknp (fieldX op))
  else .error .invalidExkk

/-- The `Fxkk` group (30_encoding.md R103 rows 26 to 34, R106). -/
def decodeGroupF (op : Word) : Except DecodeError Instr :=
  if fieldKk op = 0x07 then .ok (.ldVxDt (fieldX op))
  else if fieldKk op = 0x0A then .ok (.ldVxK (fieldX op))
  else if fieldKk op = 0x15 then .ok (.ldDtVx (fieldX op))
  else if fieldKk op = 0x18 then .ok (.ldStVx (fieldX op))
  else if fieldKk op = 0x1E then .ok (.addIVx (fieldX op))
  else if fieldKk op = 0x29 then .ok (.ldFVx (fieldX op))
  else if fieldKk op = 0x33 then .ok (.ldBVx (fieldX op))
  else if fieldKk op = 0x55 then .ok (.ldMemVx (fieldX op))
  else if fieldKk op = 0x65 then .ok (.ldVxMem (fieldX op))
  else .error .invalidFxkk

/-- `Decode(op)`: a pure, total function to one instruction of R103 or `invalid` (30_encoding.md R105). -/
def decode (op : Word) : Except DecodeError Instr :=
  match (fieldMajor op).toNat with
  | 0x0 => decodeGroup0 op
  | 0x1 => .ok (.jp (fieldNnn op))
  | 0x2 => .ok (.call (fieldNnn op))
  | 0x3 => .ok (.seVxKk (fieldX op) (fieldKk op))
  | 0x4 => .ok (.sneVxKk (fieldX op) (fieldKk op))
  | 0x5 => if fieldN op = 0 then .ok (.seVxVy (fieldX op) (fieldY op)) else .error .invalid5xyn
  | 0x6 => .ok (.ldVxKk (fieldX op) (fieldKk op))
  | 0x7 => .ok (.addVxKk (fieldX op) (fieldKk op))
  | 0x8 => decodeGroup8 op
  | 0x9 => if fieldN op = 0 then .ok (.sneVxVy (fieldX op) (fieldY op)) else .error .invalid9xyn
  | 0xA => .ok (.ldI (fieldNnn op))
  | 0xB => .ok (.jpV0 (fieldNnn op))
  | 0xC => .ok (.rnd (fieldX op) (fieldKk op))
  | 0xD => .ok (.drw (fieldX op) (fieldY op) (fieldN op).toNat)
  | 0xE => decodeGroupE op
  | _ => decodeGroupF op -- a nibble is at most 15, so this is 0xF

/-- The word two bytes of memory make: big-endian, the first byte high (20_memory.md R72). -/
def wordOfBytes (hi lo : Byte) : Word := hi ++ lo

/-- The high byte of a word, the one stored first (20_memory.md R72). -/
def highByte (op : Word) : Byte := op.extractLsb' 8 8

/-- The low byte of a word, the one stored second (20_memory.md R72). -/
def lowByte (op : Word) : Byte := op.extractLsb' 0 8

/-- Decoding any two bytes, as a tick finds them in memory (20_memory.md R72, 30_encoding.md R105). -/
def decodeBytes (hi lo : Byte) : Except DecodeError Instr := decode (wordOfBytes hi lo)

/-- The instruction the decoder reads from the bits of a row of spec/opcode_table.json: bit 0 of `w` is the least
significant bit of the one word, and bits above `nbits` are zero. -/
def decodeTableWord (nbits w : Nat) : Option Instr :=
  let op : Word := BitVec.ofNat 16 (w % 2 ^ nbits)
  (decodeBytes (highByte op) (lowByte op)).toOption

/-! ### The encoder (30_encoding.md R102, R103) -/

/-- A register index as its four-bit field. -/
def regField (r : Reg) : Nibble := BitVec.ofFin r

/-- Format NNN: `oooo nnnn nnnn nnnn`. -/
def formatNnn (major : Nibble) (nnn : Addr12) : Word := major ++ nnn

/-- Format XKK, and format X with its fixed low byte: `oooo xxxx kkkk kkkk`. -/
def formatXkk (major : Nibble) (x : Reg) (kk : Byte) : Word := major ++ regField x ++ kk

/-- Format XYN, and format XY with its fixed low nibble: `oooo xxxx yyyy nnnn`. -/
def formatXyn (major : Nibble) (x y : Reg) (n : Nibble) : Word := major ++ regField x ++ regField y ++ n

/-- The word of an instruction (30_encoding.md R103). Of a row count only the four bits of its field are encoded. -/
def encode : Instr → Word
  | .cls => 0x00E0
  | .ret => 0x00EE
  | .jp nnn => formatNnn 0x1 nnn
  | .call nnn => formatNnn 0x2 nnn
  | .seVxKk x kk => formatXkk 0x3 x kk
  | .sneVxKk x kk => formatXkk 0x4 x kk
  | .seVxVy x y => formatXyn 0x5 x y 0x0
  | .sneVxVy x y => formatXyn 0x9 x y 0x0
  | .ldVxKk x kk => formatXkk 0x6 x kk
  | .addVxKk x kk => formatXkk 0x7 x kk
  | .ldVxVy x y => formatXyn 0x8 x y 0x0
  | .orVxVy x y => formatXyn 0x8 x y 0x1
  | .andVxVy x y => formatXyn 0x8 x y 0x2
  | .xorVxVy x y => formatXyn 0x8 x y 0x3
  | .addVxVy x y => formatXyn 0x8 x y 0x4
  | .subVxVy x y => formatXyn 0x8 x y 0x5
  | .subnVxVy x y => formatXyn 0x8 x y 0x7
  | .shrVxVy x y => formatXyn 0x8 x y 0x6
  | .shlVxVy x y => formatXyn 0x8 x y 0xE
  | .ldI nnn => formatNnn 0xA nnn
  | .jpV0 nnn => formatNnn 0xB nnn
  | .rnd x kk => formatXkk 0xC x kk
  | .drw x y n => formatXyn 0xD x y (BitVec.ofNat 4 n)
  | .skp x => formatXkk 0xE x 0x9E
  | .sknp x => formatXkk 0xE x 0xA1
  | .ldVxDt x => formatXkk 0xF x 0x07
  | .ldVxK x => formatXkk 0xF x 0x0A
  | .ldDtVx x => formatXkk 0xF x 0x15
  | .ldStVx x => formatXkk 0xF x 0x18
  | .addIVx x => formatXkk 0xF x 0x1E
  | .ldFVx x => formatXkk 0xF x 0x29
  | .ldBVx x => formatXkk 0xF x 0x33
  | .ldMemVx x => formatXkk 0xF x 0x55
  | .ldVxMem x => formatXkk 0xF x 0x65

/-! ### The opcode map as a table (30_encoding.md R103) -/

/-- A row of the opcode map: a word `w` selects the row when `w & mask = pattern`; `build` extracts its fields. -/
structure OpcodeRow where
  pattern : Word
  mask    : Word
  build   : Word → Instr

/-- `w & mask = match` (30_encoding.md R103). -/
abbrev OpcodeRow.selects (r : OpcodeRow) (op : Word) : Prop := op &&& r.mask = r.pattern

/-- Rows 1 to 19 of 30_encoding.md R103. -/
def opcodeRowsFlowAlu : List OpcodeRow :=
  [⟨0x00E0, 0xFFFF, fun _ => .cls⟩, ⟨0x00EE, 0xFFFF, fun _ => .ret⟩,
   ⟨0x1000, 0xF000, fun w => .jp (fieldNnn w)⟩, ⟨0x2000, 0xF000, fun w => .call (fieldNnn w)⟩,
   ⟨0x3000, 0xF000, fun w => .seVxKk (fieldX w) (fieldKk w)⟩,
   ⟨0x4000, 0xF000, fun w => .sneVxKk (fieldX w) (fieldKk w)⟩,
   ⟨0x5000, 0xF00F, fun w => .seVxVy (fieldX w) (fieldY w)⟩,
   ⟨0x9000, 0xF00F, fun w => .sneVxVy (fieldX w) (fieldY w)⟩,
   ⟨0x6000, 0xF000, fun w => .ldVxKk (fieldX w) (fieldKk w)⟩,
   ⟨0x7000, 0xF000, fun w => .addVxKk (fieldX w) (fieldKk w)⟩,
   ⟨0x8000, 0xF00F, fun w => .ldVxVy (fieldX w) (fieldY w)⟩,
   ⟨0x8001, 0xF00F, fun w => .orVxVy (fieldX w) (fieldY w)⟩,
   ⟨0x8002, 0xF00F, fun w => .andVxVy (fieldX w) (fieldY w)⟩,
   ⟨0x8003, 0xF00F, fun w => .xorVxVy (fieldX w) (fieldY w)⟩,
   ⟨0x8004, 0xF00F, fun w => .addVxVy (fieldX w) (fieldY w)⟩,
   ⟨0x8005, 0xF00F, fun w => .subVxVy (fieldX w) (fieldY w)⟩,
   ⟨0x8007, 0xF00F, fun w => .subnVxVy (fieldX w) (fieldY w)⟩,
   ⟨0x8006, 0xF00F, fun w => .shrVxVy (fieldX w) (fieldY w)⟩,
   ⟨0x800E, 0xF00F, fun w => .shlVxVy (fieldX w) (fieldY w)⟩]

/-- Rows 20 to 34 of 30_encoding.md R103. -/
def opcodeRowsMemoryDevices : List OpcodeRow :=
  [⟨0xA000, 0xF000, fun w => .ldI (fieldNnn w)⟩, ⟨0xB000, 0xF000, fun w => .jpV0 (fieldNnn w)⟩,
   ⟨0xC000, 0xF000, fun w => .rnd (fieldX w) (fieldKk w)⟩,
   ⟨0xD000, 0xF000, fun w => .drw (fieldX w) (fieldY w) (fieldN w).toNat⟩,
   ⟨0xE09E, 0xF0FF, fun w => .skp (fieldX w)⟩, ⟨0xE0A1, 0xF0FF, fun w => .sknp (fieldX w)⟩,
   ⟨0xF007, 0xF0FF, fun w => .ldVxDt (fieldX w)⟩, ⟨0xF00A, 0xF0FF, fun w => .ldVxK (fieldX w)⟩,
   ⟨0xF015, 0xF0FF, fun w => .ldDtVx (fieldX w)⟩, ⟨0xF018, 0xF0FF, fun w => .ldStVx (fieldX w)⟩,
   ⟨0xF01E, 0xF0FF, fun w => .addIVx (fieldX w)⟩, ⟨0xF029, 0xF0FF, fun w => .ldFVx (fieldX w)⟩,
   ⟨0xF033, 0xF0FF, fun w => .ldBVx (fieldX w)⟩, ⟨0xF055, 0xF0FF, fun w => .ldMemVx (fieldX w)⟩,
   ⟨0xF065, 0xF0FF, fun w => .ldVxMem (fieldX w)⟩]

/-- The 34 rows of 30_encoding.md R103, in its order. -/
def opcodeRows : List OpcodeRow := opcodeRowsFlowAlu ++ opcodeRowsMemoryDevices

end Sys2Proof
end

