-- ==== Sys2Proof/Machine/State.lean ====
section
/-! DEFINITION. The state of the CORE (spec/10_state.md), as plain data, and its value after construct() (R36). -/

namespace Sys2Proof.Machine

/-- Memory: the bytes that are not 0x00, in ONE canonical form (addresses strictly rising, none of value 0x00; see
`Memory.wf`). An unlisted address reads 0x00, the value of every byte after construct() (10_state.md R31, R36). -/
abbrev Memory := List Host.Cell

/-- The display `D[x][y]`: 64 columns (`x`) of 32 pixels (`y`), true = lit (10_state.md R29). -/
abbrev Display := Vector (Vector Bool 32) 64

/-- The fault codes of 60_exceptions.md R241, in its order. -/
inductive FaultCode where
  | fetchOutOfRange
  | decodeError
  | stackOverflow
  | stackUnderflow
  | memOutOfRange
  | reservedWrite
  | keyOutOfRange
  deriving DecidableEq, Repr

/-- The fault record (10_state.md R32): fields that do not apply are 0. -/
structure FaultRecord where
  code  : FaultCode
  /-- The address of the instruction that faulted. -/
  pc    : Word
  /-- Its opcode, when it was fetched. -/
  op    : Word
  /-- The offending memory address, an unbounded number (20_memory.md R76; log entry 9). -/
  addr  : Nat
  /-- The offending register value. -/
  value : Byte
  deriving DecidableEq, Repr

/-- The arguments of one tick (10_state.md R51, R55, R56): inputs, not state of the core (R34). `keys[k]` says whether
key `k` is down; `pick` is the draw of 44_keys_timers.md R223 (log entry 7). -/
structure TickInput where
  keys : Vector Bool 16
  exit : Bool
  rnd  : Byte
  pick : Nat
  deriving DecidableEq, Repr

/-- One tick as the host schedules it: under HOST_SCHEDULED, how many times it calls decrease_timers() first
(60_exceptions.md R252), and the tick's arguments. -/
structure HostTick where
  decrements : Nat
  input      : TickInput
  deriving DecidableEq, Repr

/-- The outcome of an instruction (00_scope.md R14). -/
inductive Flow where
  /-- `NEXT`: pc advances by 2. -/
  | next
  /-- `SKIP`: pc advances by 4. -/
  | skip
  /-- `JUMP(t)`: pc becomes t. -/
  | jump (t : Word)
  /-- `WAIT`: pc unchanged. -/
  | wait
  deriving DecidableEq, Repr

/-- The result of the host's load_rom (70_reset_and_hazards.md R272). -/
inductive LoadResult where
  | ok
  | romTooLarge
  deriving DecidableEq, Repr

/-- Reasons a step ends outside the spec's own state space: there is none. The spec gives every fault an effect (the
record FLT is written and the core halts, 60_exceptions.md R243), so each of its seven faults is a NEXT state with
`flt` set and none is raised through this type (log entry 1). -/
inductive Fault
  deriving DecidableEq, Repr

/-- Operations to which the model gives no meaning. -/
inductive Refusal where
  /-- Raised by exec for an instruction that has no meaning yet; no arm raises it any more. Safe. -/
  | notModelled (mnemonic : String)
  /-- Raised by the host operations loadFont and loadRom after the first tick: 70_reset_and_hazards.md R273 says "a
  model refuses a load after the first tick (gives it no meaning)". Never raised by step. Safe. -/
  | loadAfterFirstTick
  deriving DecidableEq, Repr

/-- The state of the CORE (10_state.md R20 to R38), the open parameters (00_scope.md R9), and the model's own record
of the host's side, which the fixed form of `step` has no argument for (log entries 2, 5, 10). -/
structure State where
  /-- `V[0]` to `V[15]` (10_state.md R20). -/
  v       : Vector Byte 16
  /-- The index register `I` (10_state.md R25). -/
  i       : Word
  /-- The program counter (10_state.md R22). -/
  pc      : Word
  /-- The stack slots `S[0]` to `S[15]` (10_state.md R26). -/
  stack   : Vector Word 16
  /-- The stack pointer, 0 to 16 (10_state.md R26). -/
  sp      : Fin 17
  /-- The delay timer DT (10_state.md R28). -/
  dt      : Byte
  /-- The sound timer ST (10_state.md R28). -/
  st      : Byte
  /-- The display buffer D (10_state.md R29). -/
  display : Display
  /-- The changed flag CHG (10_state.md R30). -/
  chg     : Bool
  /-- Memory M (10_state.md R31). -/
  mem     : Memory
  /-- The fault record FLT (10_state.md R32). -/
  flt     : Option FaultRecord
  /-- The open parameters (00_scope.md R9). -/
  params  : Params
  /-- MODEL's own: whether a tick has run since construct() (70_reset_and_hazards.md R273). -/
  started : Bool
  /-- MODEL's own: the arguments of the tick being executed; every tick overwrites it first. -/
  input   : TickInput
  /-- MODEL's own: the host's scheduled ticks, the next one first. -/
  pending : List HostTick
  /-- MODEL's own: index of the next free value, used when nothing is scheduled. -/
  draws   : Nat
  deriving DecidableEq, Repr

/-- DESIGN CHOICE (log entry 5): no key, no exit, byte 0x00, draw 0; no tick reads it. -/
def TickInput.idle : TickInput :=
  { keys := Vector.replicate 16 false, exit := false, rnd := 0, pick := 0 }

/-- The core after construct() (10_state.md R36): zero everywhere, `pc = 0x200`, display clear, CHG false, FLT none. -/
def State.reset : State :=
  { v       := Vector.replicate 16 0
    i       := 0
    pc      := 0x200
    stack   := Vector.replicate 16 0
    sp      := 0
    dt      := 0
    st      := 0
    display := Vector.replicate 64 (Vector.replicate 32 false)
    chg     := false
    mem     := []
    flt     := none
    params  := Params.default
    started := false
    input   := TickInput.idle
    pending := []
    draws   := 0 }

end Sys2Proof.Machine
end

