-- ==== Sys2Proof/Machine/Ops.lean ====
section
/-! DEFINITION. The named operations over memory, registers, the stack, the display and the program counter, and fault
entry, which every meaning is written with. There is no return from a fault: the core has "no handler, no vector ... and
no return from a trap" (spec/60_exceptions.md R240, R244), only the host's construct() (Machine/HostOps.lean). -/

namespace Sys2Proof.Machine

/-- How an instruction ends. -/
abbrev Result := Host.Outcome State Fault Refusal

/-! ### Memory (20_memory.md R70 to R78) -/

/-- The number of bytes of memory (00_scope.md R8 MEM_SIZE). -/
def memSize : Nat := 4096

/-- The first address a program may write (00_scope.md R8 PROGRAM_BASE; 20_memory.md R77). -/
def programBase : Nat := 0x200

/-- What an unlisted address reads as: 0x00, memory's content after construct() (10_state.md R36). -/
def Memory.unlisted : Byte := 0

/-- `MemRead(a, 1)` (00_scope.md R13). -/
def Memory.read : Memory → Nat → Byte
  | [], _ => Memory.unlisted
  | (k, b) :: rest, a => if k = a then b else Memory.read rest a

/-- `MemWrite(a, 1, b)` (00_scope.md R13), keeping the canonical form: writing 0x00 removes the entry. -/
def Memory.write : Memory → Nat → Byte → Memory
  | [], a, b => if b = Memory.unlisted then [] else [(a, b)]
  | (k, c) :: rest, a, b =>
    if k < a then (k, c) :: Memory.write rest a b
    else if k = a then (if b = Memory.unlisted then rest else (a, b) :: rest)
    else (if b = Memory.unlisted then (k, c) :: rest else (a, b) :: (k, c) :: rest)

/-- The canonical form: addresses of the 4096-byte space, strictly rising, and no byte that an unlisted address would
read as. -/
abbrev Memory.wf (m : Memory) : Prop :=
  m.Pairwise (fun c d => c.1 < d.1) ∧ ∀ c ∈ m, c.1 < memSize ∧ c.2 ≠ Memory.unlisted

/-- The `n` bytes from address `a` up, lowest address first (20_memory.md R75). -/
def Memory.readBytes (m : Memory) (a : Nat) : Nat → List Byte
  | 0 => []
  | n + 1 => m.read a :: Memory.readBytes m (a + 1) n

/-- Stores bytes at `a`, `a + 1`, and so on, in rising order (20_memory.md R73, R75). -/
def Memory.writeBytes (m : Memory) (a : Nat) : List Byte → Memory
  | [] => m
  | b :: rest => Memory.writeBytes (m.write a b) (a + 1) rest

/-! ### Registers (10_state.md R20 to R30) -/

/-- Reads `V[r]`: no register is hard-wired (10_state.md R20). -/
def State.getV (s : State) (r : Reg) : Byte := s.v.get r

/-- `V[r] <- b` (10_state.md R20). -/
def State.setV (s : State) (r : Reg) (b : Byte) : State := { s with v := s.v.set r b }

/-- Replaces the register file (42_index_memory.md R185). -/
def State.setRegs (s : State) (v : Vector Byte 16) : State := { s with v := v }

/-- `I <- w` (10_state.md R25). -/
def State.setI (s : State) (w : Word) : State := { s with i := w }

/-- `DT <- b` (10_state.md R28). -/
def State.setDt (s : State) (b : Byte) : State := { s with dt := b }

/-- `ST <- b` (10_state.md R28). -/
def State.setSt (s : State) (b : Byte) : State := { s with st := b }

/-- Replaces memory (10_state.md R31). -/
def State.setMem (s : State) (m : Memory) : State := { s with mem := m }

/-- Writes the display and sets CHG, as only `00E0` and `Dxyn` do (10_state.md R29, R30). -/
def State.setDisplay (s : State) (d : Display) : State := { s with display := d, chg := true }

/-- `V[k] <- M[a + k]` for `k` in `0 .. n - 1` (42_index_memory.md R185). -/
def loadRegisters (m : Memory) (a : Nat) (v : Vector Byte 16) : Nat → Vector Byte 16
  | 0 => v
  | n + 1 => (loadRegisters m a v n).setIfInBounds n (m.read (a + n))

/-! ### The call stack (10_state.md R26, R27) -/

/-- The most recent entry `S[SP-1]` (10_state.md R26); read only when `SP` is not 0. -/
def State.stackTop (s : State) : Word :=
  s.stack.get ⟨s.sp.val - 1, by have := s.sp.isLt; omega⟩

/-- `SP <- SP - 1`; the slot keeps its value (10_state.md R27; 40_flow.md R130). -/
def State.pop (s : State) : State :=
  { s with sp := ⟨s.sp.val - 1, by have := s.sp.isLt; omega⟩ }

/-- `S[SP] <- w; SP <- SP + 1`, where the stack is not full (40_flow.md R132). -/
def State.push (s : State) (w : Word) (room : s.sp.val < 16) : State :=
  { s with stack := s.stack.set s.sp.val w room, sp := ⟨s.sp.val + 1, by omega⟩ }

/-! ### The program counter (10_state.md R23, R24; 00_scope.md R14) -/

/-- Where the pc goes for an outcome, modulo 2^16 (10_state.md R24, R60). -/
def Flow.target (f : Flow) (pc : Word) : Word :=
  match f with
  | .next => pc + 2
  | .skip => pc + 4
  | .jump t => t
  | .wait => pc

/-- Applies an outcome to the pc (10_state.md R60). -/
def State.go (s : State) (f : Flow) : State := { s with pc := f.target s.pc }

/-- An instruction that ends without a fault: its writes are committed and its outcome applied (10_state.md R60). -/
def finish (f : Flow) (s : State) : Result := .next (s.go f)

/-! ### Taking a fault (60_exceptions.md R240 to R245) -/

/-- The number of a fault code (60_exceptions.md R241). -/
def FaultCode.number : FaultCode → Nat
  | .fetchOutOfRange => 1
  | .decodeError => 2
  | .stackOverflow => 3
  | .stackUnderflow => 4
  | .memOutOfRange => 5
  | .reservedWrite => 6
  | .keyOutOfRange => 7

/-- Writes the fault record: pc keeps the address of the faulting instruction and nothing else changes
(60_exceptions.md R243). -/
def State.record (s : State) (code : FaultCode) (op : Word) (addr : Nat) (value : Byte) : State :=
  { s with flt := some { code := code, pc := s.pc, op := op, addr := addr, value := value } }

/-- `raise F(info)` (00_scope.md R14): no effect of the instruction is committed, FLT is written and the core halts. The
ONE operation through which every fault is taken; `s` is the state at the start of the instruction. -/
def raise (code : FaultCode) (op : Word) (addr : Nat) (value : Byte) (s : State) : Result :=
  .next (s.record code op addr value)

end Sys2Proof.Machine
end

