-- ==== Sys2Proof/Machine/Operands.lean ====
section
/-! DEFINITION. Operand forms: zero-extended immediates, effective addresses and their checks, the source of the shifts,
key operands, decimal digits, and the sprite a draw reads. -/

namespace Sys2Proof.Machine

/-- `zext_16(nnn)` (30_encoding.md R112). -/
def zextAddr (nnn : Addr12) : Word := nnn.setWidth 16

/-- `zext_16` of a register's byte (40_flow.md R137, 42_index_memory.md R182). -/
def zextByte (b : Byte) : Word := b.setWidth 16

/-- The target of `Bnnn`: not reduced to 12 bits (40_flow.md R137). -/
def offsetTarget (nnn : Addr12) (v0 : Byte) : Word := zextAddr nnn + zextByte v0

/-- The index after `Fx1E`: modulo 2^16 (42_index_memory.md R181). -/
def indexPlus (i : Word) (b : Byte) : Word := i + zextByte b

/-- The address of glyph `b`: five bytes a glyph, `b` not masked (42_index_memory.md R182). -/
def glyphAddress (b : Byte) : Word := zextByte b * 5

/-- The index after `Fx55` and `Fx65`: `(I + x + 1) mod 2^16` (42_index_memory.md R184, R185). -/
def indexAfter (i : Word) (x : Reg) : Word := i + BitVec.ofNat 16 (x.val + 1)

/-- The first effective address: an unbounded number, so that `I + k` never wraps (20_memory.md R76). -/
def baseAddress (s : State) : Nat := s.i.toNat

/-- The range check of an access to the `len` bytes from `a`: `none` when all lie in the address space, else the lowest
address above 0xFFF it would touch, `max(a, 0x1000)` (20_memory.md R76; the head of 42_index_memory.md). -/
def rangeFault (a len : Nat) : Option Nat :=
  if 0 < len ∧ 0xFFF < a + len - 1 then some (max a 0x1000) else none

/-- The check of a store that starts at `a`: `none` at or above 0x200, else the lowest address below it, `a`
(20_memory.md R77). -/
def reservedFault (a : Nat) : Option Nat := if a < programBase then some a else none

/-- The register the shifts read (41_alu.md R161, R162; SHIFT_SRC of 00_scope.md R9). -/
def shiftSource (x y : Reg) (s : State) : Byte :=
  match s.params.shiftSrc with
  | .vy => s.getV y
  | .vx => s.getV x

/-- A register value as a key code; above 0x0F it is none (44_keys_timers.md R220, R221). -/
def keyOf (b : Byte) : Option Key := if h : b.toNat < 16 then some ⟨b.toNat, h⟩ else none

/-- Whether a key is in the tick's `keys` (10_state.md R55). -/
def TickInput.down (inp : TickInput) (k : Key) : Bool := inp.keys.get k

/-- The keys that are down, lowest code first. -/
def TickInput.pressed (inp : TickInput) : List Key := (List.finRange 16).filter inp.down

/-- The key `Fx0A` stores: none when no key is down, else the member of `keys` that the draw names; draw 0 names the
lowest code (44_keys_timers.md R223; log entry 7). -/
def TickInput.drawnKey (inp : TickInput) : Option Key :=
  inp.pressed[inp.pick % inp.pressed.length]?

/-- A key code as a register value. -/
def keyByte (k : Key) : Byte := BitVec.ofNat 8 k.val

/-- The three decimal digits of a byte, hundreds first (42_index_memory.md R183). -/
def decimalDigits (b : Byte) : List Byte :=
  [BitVec.ofNat 8 (b.toNat / 100), BitVec.ofNat 8 (b.toNat / 10 % 10), BitVec.ofNat 8 (b.toNat % 10)]

/-- The bytes `Fx55` stores: `V[0]` to `V[x]`, in that order (42_index_memory.md R184). -/
def registersUpTo (x : Reg) (s : State) : List Byte := s.v.toList.take (x.val + 1)

/-- The column of a sprite's origin, `V[x] mod 64` (43_display.md R201). -/
def originX (x : Reg) (s : State) : Nat := (s.getV x).toNat % 64

/-- The row of a sprite's origin, `V[y] mod 32` (43_display.md R201). -/
def originY (y : Reg) (s : State) : Nat := (s.getV y).toNat % 32

/-- The `n` sprite bytes, row 0 first: `M[I]` to `M[I+n-1]` (43_display.md R202). -/
def spriteRows (n : Nat) (s : State) : List Byte := s.mem.readBytes (baseAddress s) n

end Sys2Proof.Machine
end

