-- ==== Sys2Proof/Machine/Flags.lean ====
section
/-! DEFINITION. The flag values written to VF: exactly those of `8xy4`, `8xy5`, `8xy7`, `8xy6`, `8xyE` and `Dxyn`
(spec/10_state.md R21). -/

namespace Sys2Proof.Machine

/-- A flag as the byte written to VF. -/
def flagByte (b : Bool) : Byte := if b then 1 else 0

/-- Addition: 1 iff the unsigned sum exceeds 255 (41_alu.md R158). -/
def carryFlag (a b : Byte) : Byte := flagByte (decide (255 < a.toNat + b.toNat))

/-- Subtraction `a - b`: 1 iff `a > b` strictly (41_alu.md R159, R160). -/
def greaterFlag (a b : Byte) : Byte := flagByte (decide (b.toNat < a.toNat))

/-- Shift right: the least significant bit of the source (41_alu.md R161). -/
def lowBitFlag (src : Byte) : Byte := flagByte (src.getLsbD 0)

/-- Shift left: the most significant bit of the source (41_alu.md R162). -/
def highBitFlag (src : Byte) : Byte := flagByte (src.getLsbD 7)

/-- Draw: 1 iff some pixel went from set to unset (43_display.md R202, R204). -/
def collisionFlag (hit : Bool) : Byte := flagByte hit

end Sys2Proof.Machine
end

