-- ==== Sys2Proof/Machine/Alu.lean ====
section
/-! DEFINITION. Register loads and the ALU (spec/41_alu.md). Every instruction reads its operands first, writes its
result, and last, where it has one, its flag to VF (R150); every one ends in `NEXT`. -/

namespace Sys2Proof.Machine

/-- Writes a result to `V[x]` and ends in `NEXT`: the shape of the instructions with no flag. -/
def result (x : Reg) (b : Byte) (s : State) : Result := finish .next (s.setV x b)

/-- Writes a result to `V[x]` and then a flag to VF (R150), and ends in `NEXT`. -/
def resultFlag (x : Reg) (b flag : Byte) (s : State) : Result := finish .next ((s.setV x b).setV VF flag)

/-- `LD Vx, kk` (R151). -/
def execLdVxKk (x : Reg) (kk : Byte) (s : State) : Result := result x kk s

/-- `ADD Vx, kk` (R152): wraps modulo 256, no flag. -/
def execAddVxKk (x : Reg) (kk : Byte) (s : State) : Result := result x (s.getV x + kk) s

/-- `LD Vx, Vy` (R153). -/
def execLdVxVy (x y : Reg) (s : State) : Result := result x (s.getV y) s

/-- `OR Vx, Vy` (R154, R157). -/
def execOrVxVy (x y : Reg) (s : State) : Result := result x (s.getV x ||| s.getV y) s

/-- `AND Vx, Vy` (R155, R157). -/
def execAndVxVy (x y : Reg) (s : State) : Result := result x (s.getV x &&& s.getV y) s

/-- `XOR Vx, Vy` (R156, R157). -/
def execXorVxVy (x y : Reg) (s : State) : Result := result x (s.getV x ^^^ s.getV y) s

/-- `ADD Vx, Vy` (R158). -/
def execAddVxVy (x y : Reg) (s : State) : Result :=
  resultFlag x (s.getV x + s.getV y) (carryFlag (s.getV x) (s.getV y)) s

/-- `SUB Vx, Vy` (R159): `Vx - Vy`. -/
def execSubVxVy (x y : Reg) (s : State) : Result :=
  resultFlag x (s.getV x - s.getV y) (greaterFlag (s.getV x) (s.getV y)) s

/-- `SUBN Vx, Vy` (R160): `Vy - Vx`. PRESUMED: that the instruction exists (log entry 4). -/
def execSubnVxVy (x y : Reg) (s : State) : Result :=
  resultFlag x (s.getV y - s.getV x) (greaterFlag (s.getV y) (s.getV x)) s

/-- `SHR Vx, Vy` (R161). -/
def execShrVxVy (x y : Reg) (s : State) : Result :=
  resultFlag x (shiftSource x y s >>> 1) (lowBitFlag (shiftSource x y s)) s

/-- `SHL Vx, Vy` (R162). -/
def execShlVxVy (x y : Reg) (s : State) : Result :=
  resultFlag x (shiftSource x y s <<< 1) (highBitFlag (shiftSource x y s)) s

/-- `RND Vx, kk` (R163): the tick's random byte is a free input (10_state.md R56). -/
def execRnd (x : Reg) (kk : Byte) (s : State) : Result := result x (s.input.rnd &&& kk) s

end Sys2Proof.Machine
end

