-- ==== Sys2Proof/Machine/Display.lean ====
section
/-! DEFINITION. The display instructions and the pixel buffer (spec/43_display.md). -/

namespace Sys2Proof.Machine

/-- The clear display (10_state.md R36, 43_display.md R200). -/
def Display.blank : Display := Vector.replicate 64 (Vector.replicate 32 false)

/-- The pixel at column `px`, row `py` (10_state.md R29). -/
def Display.pixel (d : Display) (px : Fin 64) (py : Fin 32) : Bool := (d.get px).get py

/-- Inverts one pixel. -/
def Display.toggle (d : Display) (px : Fin 64) (py : Fin 32) : Display :=
  d.set px ((d.get px).set py (!d.pixel px py))

/-- The display while a sprite is drawn, and whether a set pixel has been unset so far (R202 `hit`). -/
structure Canvas where
  display : Display
  hit     : Bool
  deriving DecidableEq, Repr

/-- One pixel of a sprite under a 1 bit: both coordinates wrap (R201, R202). -/
def Canvas.touch (c : Canvas) (col row : Nat) : Canvas :=
  { display := c.display.toggle (Fin.ofNat 64 col) (Fin.ofNat 32 row)
    hit     := c.hit || c.display.pixel (Fin.ofNat 64 col) (Fin.ofNat 32 row) }

/-- Bits `8 - k` to `7` of a sprite byte, `k` columns from the left: bit 7 is the leftmost pixel (R203). -/
def Canvas.drawColumns (col row : Nat) (b : Byte) (c : Canvas) : Nat → Canvas
  | 0 => c
  | k + 1 =>
    let c' := Canvas.drawColumns col row b c k
    if b.getLsbD (7 - k) then c'.touch (col + k) row else c'

/-- One sprite byte, eight pixels from column `col` in row `row` (R202). -/
def Canvas.drawRow (col row : Nat) (b : Byte) (c : Canvas) : Canvas := Canvas.drawColumns col row b c 8

/-- Sprite bytes from row `row` down (R202). -/
def Canvas.drawRows (col row : Nat) (c : Canvas) : List Byte → Canvas
  | [] => c
  | b :: rest => Canvas.drawRows col (row + 1) (c.drawRow col row b) rest

/-- `CLS` (R200): CHG is set even if the display was already clear. -/
def execCls (s : State) : Result := finish .next (s.setDisplay Display.blank)

/-- The display and the collision after drawing `n` rows at the origin `(V[x] mod 64, V[y] mod 32)` (R201, R202). -/
def drawSprite (x y : Reg) (n : Nat) (s : State) : Canvas :=
  Canvas.drawRows (originX x s) (originY y s) { display := s.display, hit := false } (spriteRows n s)

/-- `DRW Vx, Vy, n` (R202): the coordinates are read before VF is written; CHG is set unconditionally. -/
def execDrw (x y : Reg) (n : Nat) (s : State) : Result :=
  match rangeFault (baseAddress s) n with
  | some a => raise .memOutOfRange (encode (.drw x y n)) a 0 s
  | none =>
    finish .next
      ((s.setDisplay (drawSprite x y n s).display).setV VF (collisionFlag (drawSprite x y n s).hit))

end Sys2Proof.Machine
end

