-- ==== Sys2Proof/Machine/Flow.lean ====
section
/-! DEFINITION. Control transfer (spec/40_flow.md). While an instruction executes, `pc` is its own address
(10_state.md R22). -/

namespace Sys2Proof.Machine

/-- `RET` (R130): pops and continues after the `2nnn` that made the call, at `(S[SP-1] + 2) mod 2^16`. -/
def execRet (s : State) : Result :=
  if s.sp.val = 0 then raise .stackUnderflow (encode .ret) 0 0 s
  else finish (.jump (s.stackTop + 2)) s.pop

/-- `JP nnn` (R131). -/
def execJp (nnn : Addr12) (s : State) : Result := finish (.jump (zextAddr nnn)) s

/-- `CALL nnn` (R132): pushes the address of this `CALL`. -/
def execCall (nnn : Addr12) (s : State) : Result :=
  if room : s.sp.val < 16 then finish (.jump (zextAddr nnn)) (s.push s.pc room)
  else raise .stackOverflow (encode (.call nnn)) 0 0 s

/-- The two ends of a skip: `SKIP` when the condition holds, else `NEXT` (R133 to R136). -/
def skipIf (c : Bool) (s : State) : Result := finish (if c then .skip else .next) s

/-- `SE Vx, kk` (R133). -/
def execSeVxKk (x : Reg) (kk : Byte) (s : State) : Result := skipIf (s.getV x == kk) s

/-- `SNE Vx, kk` (R134). -/
def execSneVxKk (x : Reg) (kk : Byte) (s : State) : Result := skipIf (s.getV x != kk) s

/-- `SE Vx, Vy` (R135). -/
def execSeVxVy (x y : Reg) (s : State) : Result := skipIf (s.getV x == s.getV y) s

/-- `SNE Vx, Vy` (R136). -/
def execSneVxVy (x y : Reg) (s : State) : Result := skipIf (s.getV x != s.getV y) s

/-- `JP V0, nnn` (R137): the sum is not masked. -/
def execJpV0 (nnn : Addr12) (s : State) : Result := finish (.jump (offsetTarget nnn (s.getV 0))) s

end Sys2Proof.Machine
end

