-- ==== Sys2Proof/Machine/IndexMemory.lean ====
section
/-! DEFINITION. The index register and memory transfers (spec/42_index_memory.md). Every check is made before the first
write (60_exceptions.md R245). -/

namespace Sys2Proof.Machine

/-- `LD I, nnn` (R180). -/
def execLdI (nnn : Addr12) (s : State) : Result := finish .next (s.setI (zextAddr nnn))

/-- `ADD I, Vx` (R181): no flag, no fault. -/
def execAddIVx (x : Reg) (s : State) : Result := finish .next (s.setI (indexPlus s.i (s.getV x)))

/-- `LD F, Vx` (R182). -/
def execLdFVx (x : Reg) (s : State) : Result := finish .next (s.setI (glyphAddress (s.getV x)))

/-- A store of `bytes` at `I`, then `I <- index`, as `Fx33` and `Fx55` make it: the range check first, then the
reserved-area check, then the writes (20_memory.md R76, R77; 60_exceptions.md R242). `op` is the instruction's word. -/
def storeAtI (op : Word) (bytes : List Byte) (index : Word) (s : State) : Result :=
  match rangeFault (baseAddress s) bytes.length with
  | some a => raise .memOutOfRange op a 0 s
  | none =>
    match reservedFault (baseAddress s) with
    | some a => raise .reservedWrite op a 0 s
    | none => finish .next ((s.setMem (s.mem.writeBytes (baseAddress s) bytes)).setI index)

/-- `LD B, Vx` (R183): `I` is unchanged. -/
def execLdBVx (x : Reg) (s : State) : Result :=
  storeAtI (encode (.ldBVx x)) (decimalDigits (s.getV x)) s.i s

/-- `LD [I], Vx` (R184): `I` advances by `x + 1`. -/
def execLdMemVx (x : Reg) (s : State) : Result :=
  storeAtI (encode (.ldMemVx x)) (registersUpTo x s) (indexAfter s.i x) s

/-- `LD Vx, [I]` (R185): reads below 0x200 are allowed; `I` advances by `x + 1`. -/
def execLdVxMem (x : Reg) (s : State) : Result :=
  match rangeFault (baseAddress s) (x.val + 1) with
  | some a => raise .memOutOfRange (encode (.ldVxMem x)) a 0 s
  | none =>
    finish .next
      ((s.setRegs (loadRegisters s.mem (baseAddress s) s.v (x.val + 1))).setI (indexAfter s.i x))

end Sys2Proof.Machine
end

