-- ==== Sys2Proof/Machine/KeysTimers.lean ====
section
/-! DEFINITION. Keypad and timer instructions (spec/44_keys_timers.md). The keys are the tick's argument, held in
`input` (10_state.md R55); the exit signal is never read (R224). -/

namespace Sys2Proof.Machine

/-- A skip on the key `V[x]` being down (`want` true) or up (`want` false): above 0x0F it faults before anything is
compared (R220, R221). `op` is the instruction's word. -/
def skipOnKey (op : Word) (x : Reg) (want : Bool) (s : State) : Result :=
  match keyOf (s.getV x) with
  | none => raise .keyOutOfRange op 0 (s.getV x) s
  | some k => skipIf (s.input.down k == want) s

/-- `SKP Vx` (R220). -/
def execSkp (x : Reg) (s : State) : Result := skipOnKey (encode (.skp x)) x true s

/-- `SKNP Vx` (R221). -/
def execSknp (x : Reg) (s : State) : Result := skipOnKey (encode (.sknp x)) x false s

/-- `LD Vx, DT` (R222). -/
def execLdVxDt (x : Reg) (s : State) : Result := finish .next (s.setV x s.dt)

/-- `LD Vx, K` (R223): with no key down the outcome is `WAIT`, else a key that is down is stored. -/
def execLdVxK (x : Reg) (s : State) : Result :=
  .next (match s.input.drawnKey with
    | none => s.go .wait
    | some k => (s.setV x (keyByte k)).go .next)

/-- `LD DT, Vx` (R225). -/
def execLdDtVx (x : Reg) (s : State) : Result := finish .next (s.setDt (s.getV x))

/-- `LD ST, Vx` (R226). -/
def execLdStVx (x : Reg) (s : State) : Result := finish .next (s.setSt (s.getV x))

end Sys2Proof.Machine
end

