-- ==== Sys2Proof/Machine/Tick.lean ====
section
/-! DEFINITION. The timers, the fetch and the tick (spec/10_state.md R60 to R66, 60_exceptions.md R250 to R252). -/

namespace Sys2Proof.Machine

/-- Whether the core is halted by a fault (10_state.md R61, 60_exceptions.md R244). -/
def State.halted (s : State) : Bool := s.flt.isSome

/-- One timer, counted down and saturating at zero (60_exceptions.md R250). -/
def countDown (b : Byte) : Byte := if b = 0 then 0 else b - 1

/-- `decrease_timers()` (60_exceptions.md R250). -/
def decreaseTimers (s : State) : State :=
  if s.halted then s else { s with dt := countDown s.dt, st := countDown s.st }

/-- `decrease_timers()` called `n` times. -/
def decreaseTimersBy : Nat → State → State
  | 0, s => s
  | n + 1, s => decreaseTimersBy n (decreaseTimers s)

/-- How many times the host calls decrease_timers() before a scheduled tick: exactly once under COUPLED
(60_exceptions.md R251), as often as it likes under HOST_SCHEDULED (R252). -/
def decrementsBefore (h : HostTick) (s : State) : Nat :=
  match s.params.timerMode with
  | .coupled => 1
  | .hostScheduled => h.decrements

/-- The tick the host makes when none is scheduled: free values (log entry 5). -/
def freeHostTick (n : Nat) : HostTick :=
  { decrements := Config.freeDecrements n
    input :=
      { keys := Config.freeKeys n, exit := Config.freeExit n, rnd := Config.freeRnd n
        pick := Config.freePick n } }

/-- The tick the host makes next. -/
def nextHostTick (s : State) : HostTick :=
  match s.pending with
  | [] => freeHostTick s.draws
  | h :: _ => h

/-- Takes that tick off the host's schedule, or moves on to the next free values. -/
def consumeHostTick (s : State) : State :=
  match s.pending with
  | [] => { s with draws := s.draws + 1 }
  | _ :: rest => { s with pending := rest }

/-- The host's side of a step, before the tick: its timer decrements (60_exceptions.md R251, R252). -/
def beforeTick (s : State) : State :=
  decreaseTimersBy (decrementsBefore (nextHostTick s) s) (consumeHostTick s)

/-- The start of a tick of a running core: the arguments given, CHG cleared (10_state.md R62), the first tick past. -/
def beginTick (inp : TickInput) (s : State) : State :=
  { s with input := inp, chg := false, started := true }

/-- Whether both bytes of the instruction lie in memory (10_state.md R63). -/
def fetchable (pc : Word) : Bool := decide (pc.toNat ≤ 0xFFE)

/-- The opcode at `pc`, big-endian, at any address, odd or even (20_memory.md R72, R74). -/
def fetchWord (s : State) : Word := wordOfBytes (s.mem.read s.pc.toNat) (s.mem.read (s.pc.toNat + 1))

/-- Decodes and executes a fetched word (10_state.md R60). -/
def executeWord (op : Word) (s : State) : Result :=
  match decode op with
  | .error _ => raise .decodeError op 0 0 s
  | .ok i => exec i s

/-- `tick(keys, exit, rnd)` (10_state.md R60): a halted core does nothing (R61); else CHG is cleared, the word at pc is
fetched, decoded and executed. -/
def tick (inp : TickInput) (s : State) : Result :=
  if s.halted then .next s
  else if fetchable s.pc then executeWord (fetchWord s) (beginTick inp s)
  else raise .fetchOutOfRange 0 0 0 (beginTick inp s)

/-- Stores a word where the next instruction is fetched (70_reset_and_hazards.md R272 for the reset state). -/
def storeFetchWord (op : Word) (s : State) : State :=
  if fetchable s.pc then s.setMem (s.mem.writeBytes s.pc.toNat [highByte op, lowByte op]) else s

end Sys2Proof.Machine
end

