-- ==== Sys2Proof/Machine/Step.lean ====
section
/-! DEFINITION. One step: the host's timer decrements and then one tick (spec/60_exceptions.md R251, R252;
10_state.md R60). -/

namespace Sys2Proof.Machine

/-- One step of the machine: the next tick the host makes, with the decrements before it. A halted core is left as it
is: neither operation does anything (10_state.md R61, 60_exceptions.md R244). -/
def step (s : State) : Host.Outcome State Fault Refusal :=
  if s.halted then .next s else tick (nextHostTick s).input (beforeTick s)

/-- `s` with the instruction of a row's word stored where `step` fetches next. -/
def State.withFetchWord (s : State) (nbits w : Nat) : State :=
  storeFetchWord (BitVec.ofNat 16 (w % 2 ^ nbits)) s

end Sys2Proof.Machine
end

