-- ==== Sys2Proof/Machine/HostOps.lean ====
section
/-! DEFINITION. The host's other operations (spec/10_state.md R51): construct, load_font, load_rom, vram,
refresh_screen, status, and the boot order. -/

namespace Sys2Proof.Machine

/-- `construct()` (70_reset_and_hazards.md R270): every piece of the core's state to its value of 10_state.md R36. The
parameters and the host's schedule are not the core's state and stay. -/
def construct (s : State) : State :=
  { State.reset with params := s.params, pending := s.pending, draws := s.draws }

/-- The 80 bytes of FONT (10_state.md R38). -/
def Font.bytes (f : Font) : List Byte := f.toList.flatMap Vector.toList

/-- `load_font()` (70_reset_and_hazards.md R271); refused after the first tick (R273). -/
def loadFont (s : State) : Result :=
  if s.started then .refused .loadAfterFirstTick
  else .next (s.setMem (s.mem.writeBytes 0 (Font.bytes s.params.font)))

/-- The number of bytes from PROGRAM_BASE to the end of memory (00_scope.md R5). -/
def programBytes : Nat := 3584

/-- `load_rom(bytes)` (70_reset_and_hazards.md R272); refused after the first tick (R273). -/
def loadRom (bytes : List Byte) (s : State) : Host.Outcome (State × LoadResult) Fault Refusal :=
  if s.started then .refused .loadAfterFirstTick
  else if programBytes < bytes.length then .next (s, .romTooLarge)
  else .next (s.setMem (s.mem.writeBytes programBase bytes), .ok)

/-- The boot order: construct(), load_font(), load_rom(bytes) (70_reset_and_hazards.md R273). -/
def boot (bytes : List Byte) (s : State) : Host.Outcome (State × LoadResult) Fault Refusal :=
  match loadFont (construct s) with
  | .next t => loadRom bytes t
  | .fault r => .fault r
  | .refused r => .refused r

/-- `vram()`: the display as it stands (43_display.md R206). -/
def vram (s : State) : Display := s.display

/-- `refresh_screen()`: CHG (43_display.md R207). -/
def refreshScreen (s : State) : Bool := s.chg

/-- What `status()` returns (60_exceptions.md R256). -/
structure Status where
  flt         : Option FaultRecord
  soundActive : Bool
  deriving DecidableEq, Repr

/-- `status()` (60_exceptions.md R256). -/
def status (s : State) : Status := { flt := s.flt, soundActive := s.st != 0 }

end Sys2Proof.Machine
end

