-- ==== Sys2Proof/Safety.lean ====
section
/-! DEFINITION. The terms statements are made in: faulted runs, the invariant, what an instruction may write, and the
frames ("everything else is unchanged"). None of these is used by the machine. -/

namespace Sys2Proof.Machine

/-! ### Runs (70_reset_and_hazards.md R277) -/

/-- No fault is recorded: "a run is faulted if `FLT != none` (never a good end)" (70_reset_and_hazards.md R277). -/
abbrev State.running (s : State) : Prop := s.flt = none

/-- A run of `k` steps from `s` ends in `t`. -/
abbrev runsTo (k : Nat) (s t : State) : Prop := Host.Core.run Sys2Proof.core k s = .next t

/-- A run of `k` steps from `s` that ends well: with no fault recorded (70_reset_and_hazards.md R277). -/
abbrev endsWell (k : Nat) (s : State) : Prop := ∃ t, runsTo k s t ∧ t.running

/-! ### What an instruction may write -/

/-- The registers an instruction names as its destination (41_alu.md, 42_index_memory.md R185, 44_keys_timers.md). A
flag written to VF is not a destination: see `Instr.writesFlag`. -/
def destination : Instr → Reg → Bool
  | .cls, _ => false
  | .ret, _ => false
  | .jp _, _ => false
  | .call _, _ => false
  | .seVxKk _ _, _ => false
  | .sneVxKk _ _, _ => false
  | .seVxVy _ _, _ => false
  | .sneVxVy _ _, _ => false
  | .ldVxKk x _, r => r == x
  | .addVxKk x _, r => r == x
  | .ldVxVy x _, r => r == x
  | .orVxVy x _, r => r == x
  | .andVxVy x _, r => r == x
  | .xorVxVy x _, r => r == x
  | .addVxVy x _, r => r == x
  | .subVxVy x _, r => r == x
  | .subnVxVy x _, r => r == x
  | .shrVxVy x _, r => r == x
  | .shlVxVy x _, r => r == x
  | .ldI _, _ => false
  | .jpV0 _, _ => false
  | .rnd x _, r => r == x
  | .drw _ _ _, _ => false
  | .skp _, _ => false
  | .sknp _, _ => false
  | .ldVxDt x, r => r == x
  | .ldVxK x, r => r == x
  | .ldDtVx _, _ => false
  | .ldStVx _, _ => false
  | .addIVx _, _ => false
  | .ldFVx _, _ => false
  | .ldBVx _, _ => false
  | .ldMemVx _, _ => false
  | .ldVxMem x, r => decide (r ≤ x)

/-- The instructions that write a flag value to VF (10_state.md R21). -/
def writesFlag : Instr → Bool
  | .addVxVy _ _ | .subVxVy _ _ | .subnVxVy _ _ | .shrVxVy _ _ | .shlVxVy _ _ | .drw _ _ _ => true
  | _ => false

/-- How many bytes an instruction stores, from `I` up (20_memory.md R75). -/
def storedBytes : Instr → Nat
  | .ldBVx _ => 3
  | .ldMemVx x => x.val + 1
  | _ => 0

/-- How many bytes of memory an instruction touches, from `I` up (20_memory.md R75). -/
def touchedBytes : Instr → Nat
  | .drw _ _ n => n
  | .ldBVx _ => 3
  | .ldMemVx x => x.val + 1
  | .ldVxMem x => x.val + 1
  | _ => 0

/-- The instructions that write the display (10_state.md R29). -/
def drawing : Instr → Bool
  | .cls | .drw _ _ _ => true
  | _ => false

/-- The instructions that write `I` (10_state.md R25). -/
def writesIndex : Instr → Bool
  | .ldI _ | .addIVx _ | .ldFVx _ | .ldMemVx _ | .ldVxMem _ => true
  | _ => false

/-- The instructions that write the stack or its pointer (10_state.md R27). -/
def usesStack : Instr → Bool
  | .ret | .call _ => true
  | _ => false

/-- The instructions that may skip (00_scope.md R14). -/
def skipping : Instr → Bool
  | .seVxKk _ _ | .sneVxKk _ _ | .seVxVy _ _ | .sneVxVy _ _ | .skp _ | .sknp _ => true
  | _ => false

/-- The instructions that jump (00_scope.md R14). -/
def jumping : Instr → Bool
  | .ret | .jp _ | .call _ | .jpV0 _ => true
  | _ => false

/-- The instructions that read the tick's keys (10_state.md R55). -/
def readsKeys : Instr → Bool
  | .skp _ | .sknp _ | .ldVxK _ => true
  | _ => false

/-! ### Frames: what two states have in common -/

/-- Every general register holds what it held. -/
abbrev SameRegs (s t : State) : Prop := ∀ r, t.getV r = s.getV r

/-- Every byte of memory reads as it read. -/
abbrev SameMemory (s t : State) : Prop := ∀ a, t.mem.read a = s.mem.read a

/-- Every byte of memory outside the `n` bytes from `a` reads as it read. -/
abbrev SameMemoryOutside (a n : Nat) (s t : State) : Prop :=
  ∀ b, (b < a ∨ a + n ≤ b) → t.mem.read b = s.mem.read b

/-- The call stack is unchanged. -/
abbrev SameStack (s t : State) : Prop := t.sp = s.sp ∧ t.stack = s.stack

/-- Both timers are unchanged. -/
abbrev SameTimers (s t : State) : Prop := t.dt = s.dt ∧ t.st = s.st

/-- The display and CHG are unchanged. -/
abbrev SameScreen (s t : State) : Prop := t.display = s.display ∧ t.chg = s.chg

/-- FLT, the parameters and the host's side are unchanged. -/
abbrev SameRest (s t : State) : Prop :=
  t.flt = s.flt ∧ t.params = s.params ∧ t.started = s.started ∧ t.input = s.input ∧
    t.pending = s.pending ∧ t.draws = s.draws

/-- Everything but the general registers and the pc is unchanged. -/
abbrev OnlyRegs (s t : State) : Prop :=
  t.i = s.i ∧ SameMemory s t ∧ SameStack s t ∧ SameTimers s t ∧ SameScreen s t ∧ SameRest s t

/-- Everything but `I` and the pc is unchanged. -/
abbrev OnlyIndex (s t : State) : Prop :=
  SameRegs s t ∧ SameMemory s t ∧ SameStack s t ∧ SameTimers s t ∧ SameScreen s t ∧ SameRest s t

/-- Everything but the pc is unchanged. -/
abbrev OnlyPc (s t : State) : Prop := SameRegs s t ∧ OnlyRegs s t

/-- Outcome `NEXT`: the pc is 2 further, modulo 2^16 (10_state.md R24). -/
abbrev Next (s t : State) : Prop := t.pc.toNat = (s.pc.toNat + 2) % 65536

/-- Outcome `SKIP`: the pc is 4 further, modulo 2^16 (10_state.md R24). -/
abbrev Skip (s t : State) : Prop := t.pc.toNat = (s.pc.toNat + 4) % 65536

/-- `V[x]` becomes `b`, outcome `NEXT`, nothing else changes. -/
abbrev Writes (x : Reg) (b : Byte) (s t : State) : Prop :=
  t.getV x = b ∧ (∀ r, r ≠ x → t.getV r = s.getV r) ∧ Next s t ∧ OnlyRegs s t

/-- `V[x]` becomes `b` and then VF becomes `flag` (41_alu.md R150), outcome `NEXT`, nothing else changes. -/
abbrev WritesFlag (x : Reg) (b flag : Byte) (s t : State) : Prop :=
  t.getV VF = flag ∧ (x ≠ VF → t.getV x = b) ∧ (∀ r, r ≠ x → r ≠ VF → t.getV r = s.getV r) ∧
    Next s t ∧ OnlyRegs s t

/-- The pixel `(px, py)` of a state's display (10_state.md R29). -/
abbrev State.pixel (s : State) (px : Fin 64) (py : Fin 32) : Bool := s.display.pixel px py

/-- The state after a fault: the state before it with FLT set (60_exceptions.md R243). -/
abbrev State.withFault (s : State) (code : FaultCode) (op : Word) (addr : Nat) (value : Byte) : State :=
  { s with flt := some { code := code, pc := s.pc, op := op, addr := addr, value := value } }

/-! ### Decoding -/

/-- Every word that a row of the opcode map selects decodes to that row's instruction, with the fields extracted
(30_encoding.md R103). -/
abbrev RowDecodes (mask pattern : Word) (build : Word → Instr) : Prop :=
  ∀ op : Word, op &&& mask = pattern → decode op = .ok (build op)

/-! ### Sprites (43_display.md R201) -/

/-- The pixel `(px, py)` lies under a 1 bit of the `n`-row sprite at `I`, drawn at `(V[x] mod 64, V[y] mod 32)`: bit `c`
(0 = leftmost, bit 7 of the byte) of row `r` is the pixel `((x0 + c) mod 64, (y0 + r) mod 32)` (43_display.md R201,
R203). -/
abbrev underSprite (x y : Reg) (n : Nat) (s : State) (px : Fin 64) (py : Fin 32) : Prop :=
  ∃ r, r < n ∧ ∃ c, c < 8 ∧
    ((s.getV x).toNat % 64 + c) % 64 = px.val ∧ ((s.getV y).toNat % 32 + r) % 32 = py.val ∧
    (s.mem.read (s.i.toNat + r)).getLsbD (7 - c) = true

/-- The bytes of the sprite are in memory: `n = 0`, or `I + n - 1` at most 0xFFF (43_display.md R202). -/
abbrev spriteInMemory (n : Nat) (s : State) : Prop := n = 0 ∨ s.i.toNat + n - 1 ≤ 0xFFF

/-! ### Results under a change of the host's inputs -/

/-- A result with its state changed by `f`. -/
def mapNext (f : State → State) : Result → Result
  | .next s => .next (f s)
  | .fault r => .fault r
  | .refused r => .refused r

/-- The state with other keys down. -/
def State.withKeys (keys : Vector Bool 16) (s : State) : State := { s with input := { s.input with keys := keys } }

/-- The state with another exit signal. -/
def State.withExit (exit : Bool) (s : State) : State := { s with input := { s.input with exit := exit } }

/-- The state with another random byte. -/
def State.withRnd (rnd : Byte) (s : State) : State := { s with input := { s.input with rnd := rnd } }

/-- The state with another draw of a key. -/
def State.withPick (pick : Nat) (s : State) : State := { s with input := { s.input with pick := pick } }

/-- The state with another display, CHG as it is. -/
def State.withDisplay (d : Display) (s : State) : State := { s with display := d }

/-! ### The invariant -/

/-- What 60_exceptions.md R241 says of a record: which instructions raise its code, and which fields it fills; the
others are 0 (10_state.md R32). -/
def FaultRecord.consistent (r : FaultRecord) : Prop :=
  match r.code with
  | .fetchOutOfRange => 0xFFE < r.pc.toNat ∧ r.op = 0 ∧ r.addr = 0 ∧ r.value = 0
  | .decodeError => r.pc.toNat ≤ 0xFFE ∧ (∃ e, decode r.op = .error e) ∧ r.addr = 0 ∧ r.value = 0
  | .stackOverflow =>
    r.pc.toNat ≤ 0xFFE ∧ (∃ nnn, decode r.op = .ok (.call nnn)) ∧ r.addr = 0 ∧ r.value = 0
  | .stackUnderflow => r.pc.toNat ≤ 0xFFE ∧ decode r.op = .ok .ret ∧ r.addr = 0 ∧ r.value = 0
  | .memOutOfRange =>
    r.pc.toNat ≤ 0xFFE ∧
      (∃ x y n, decode r.op = .ok (.drw x y n) ∨ decode r.op = .ok (.ldBVx x) ∨
        decode r.op = .ok (.ldMemVx x) ∨ decode r.op = .ok (.ldVxMem x)) ∧
      0xFFF < r.addr ∧ r.addr ≤ 0xFFFF ∧ r.value = 0
  | .reservedWrite =>
    r.pc.toNat ≤ 0xFFE ∧ (∃ x, decode r.op = .ok (.ldBVx x) ∨ decode r.op = .ok (.ldMemVx x)) ∧
      r.addr < 0x200 ∧ r.value = 0
  | .keyOutOfRange =>
    r.pc.toNat ≤ 0xFFE ∧ (∃ x, decode r.op = .ok (.skp x) ∨ decode r.op = .ok (.sknp x)) ∧
      r.addr = 0 ∧ 0x0F < r.value.toNat

/-- The invariant of the machine: memory is in canonical form; every stack entry in use is an address an instruction
was fetched from (10_state.md R35: "pushed values are <= 0xFFE"); a recorded fault is consistent, its pc is the pc of
the halted core and CHG is false (60_exceptions.md R243). -/
structure State.Inv (s : State) : Prop where
  mem_wf : s.mem.wf
  stack_fetched : ∀ k : Fin 16, k.val < s.sp.val → (s.stack.get k).toNat ≤ 0xFFE
  fault_consistent : ∀ r, s.flt = some r → r.consistent ∧ r.pc = s.pc ∧ s.chg = false

end Sys2Proof.Machine
end

