-- ==== Sys2Proof/Certificates/Slice0/Obligations.lean ====
section
/-! DEFINITION. The statements for the provers. Each docstring names the rules of spec/ it formalises, and where a clause
rests on a decision or general knowledge of the spec (00_scope.md R17), on its mark there and the log entry. Clauses that
name opcode patterns (`RowDecodes`) rest on general knowledge, decision D21 (log entry 4). -/

open Sys2Proof Sys2Proof.Machine

/-! ### Encoding (30_encoding.md) -/

/-- R105, R112: encoding a well-formed instruction and decoding the word gives the instruction back, with every operand
at every value its field admits. The patterns are those of D21 (log entry 4). -/
def Obligations.DecodeOfEncodeIsTheInstruction : Prop :=
  ∀ i : Instr, i.wellFormed = true → decode (encode i) = .ok i

/-- R105: each word has one meaning: a word that decodes is the encoding of what it decodes to, which is well formed. The
patterns are those of D21, every fixed bit checked by D14 (log entries 4, 16). -/
def Obligations.EncodeOfDecodeIsTheWord : Prop :=
  ∀ (op : Word) (i : Instr), decode op = .ok i → encode i = op ∧ i.wellFormed = true

/-- R103, R105, R106: the decoder is the opcode map. A word that a row selects decodes to the row's instruction with its
fields; a word that no row selects is invalid; no word is selected by two rows; there are 34 rows. The patterns are
those of D21, every fixed bit checked by D14 (log entries 4, 16). -/
def Obligations.DecodeFollowsTheOpcodeMap : Prop :=
  opcodeRows.length = 34 ∧
  (∀ r ∈ opcodeRows, RowDecodes r.mask r.pattern r.build) ∧
  (∀ op : Word, (∀ r ∈ opcodeRows, op &&& r.mask ≠ r.pattern) → ∃ e, decode op = .error e) ∧
  opcodeRows.Pairwise (fun r q => ∀ op : Word, ¬ (op &&& r.mask = r.pattern ∧ op &&& q.mask = q.pattern))

/-- R107: the invalid words are exactly the six classes (D14, log entry 16), each rejected under a name of the model's own. -/
def Obligations.InvalidWordsAreTheSixClasses : Prop :=
  ∀ op : Word,
    (decode op = .error .invalid0nnn ↔ op.toNat < 0x1000 ∧ op ≠ 0x00E0 ∧ op ≠ 0x00EE) ∧
    (decode op = .error .invalid5xyn ↔ op.toNat / 0x1000 = 0x5 ∧ op.toNat % 16 ≠ 0) ∧
    (decode op = .error .invalid8xyn ↔
      op.toNat / 0x1000 = 0x8 ∧ op.toNat % 16 ∈ [0x8, 0x9, 0xA, 0xB, 0xC, 0xD, 0xF]) ∧
    (decode op = .error .invalid9xyn ↔ op.toNat / 0x1000 = 0x9 ∧ op.toNat % 16 ≠ 0) ∧
    (decode op = .error .invalidExkk ↔ op.toNat / 0x1000 = 0xE ∧ op.toNat % 256 ∉ [0x9E, 0xA1]) ∧
    (decode op = .error .invalidFxkk ↔
      op.toNat / 0x1000 = 0xF ∧
        op.toNat % 256 ∉ [0x07, 0x0A, 0x15, 0x18, 0x1E, 0x29, 0x33, 0x55, 0x65])

/-- R103: words written out from the patterns of the opcode map, one or more of each family (D21, log entry 4). -/
def Obligations.WordsDecodeToTheirInstructions : Prop :=
  decode 0x00E0 = .ok .cls ∧ decode 0x00EE = .ok .ret ∧ decode 0x120E = .ok (.jp 0x20E) ∧
  decode 0x452A = .ok (.sneVxKk 5 0x2A) ∧ decode 0x8127 = .ok (.subnVxVy 1 2) ∧
  decode 0x8AB6 = .ok (.shrVxVy 10 11) ∧ decode 0xA300 = .ok (.ldI 0x300) ∧
  decode 0xC10F = .ok (.rnd 1 0x0F) ∧ decode 0xD125 = .ok (.drw 1 2 5) ∧ decode 0xE1A1 = .ok (.sknp 1) ∧
  decode 0xFA33 = .ok (.ldBVx 10) ∧ decode 0xF265 = .ok (.ldVxMem 2) ∧ decode 0xF30A = .ok (.ldVxK 3)

/-- R104: the source's end-to-end scenario, on every running core with `pc = 0x200` and the two bytes there, whatever
the host's schedule and the parameters. -/
def Obligations.SourceScenarioSkipsOnNotEqual : Prop :=
  decode 0x452A = .ok (.sneVxKk 5 0x2A) ∧
  ∀ s : State, s.running → s.pc = 0x200 → s.mem.read 0x200 = 0x45 → s.mem.read 0x201 = 0x2A →
    (s.getV 5 = 2 → ∃ t, step s = .next t ∧ t.pc = 0x204) ∧
    (s.getV 5 = 0x2A → ∃ t, step s = .next t ∧ t.pc = 0x202)

/-! ### The tick (10_state.md) -/

/-- R72: the fetch is big-endian, at any pc, odd or even. -/
def Obligations.FetchIsBigEndian : Prop :=
  ∀ s : State,
    (fetchWord s).toNat = 256 * (s.mem.read s.pc.toNat).toNat + (s.mem.read (s.pc.toNat + 1)).toNat ∧
    (fetchWord s).extractLsb' 8 8 = s.mem.read s.pc.toNat ∧
    (fetchWord s).extractLsb' 0 8 = s.mem.read (s.pc.toNat + 1)

/-- A step runs the decoded instruction: on a running core whose two bytes at pc decode to `i`, a step is `exec i` on
the state after the host's decrements and the start of the tick; that state differs from `s` only in the timers, CHG
and the model's own record of the host's side (log entries 5, 6). -/
def Obligations.StepRunsTheDecodedInstruction : Prop :=
  ∀ (s : State) (i : Instr), s.running → s.pc.toNat ≤ 0xFFE →
    decodeBytes (s.mem.read s.pc.toNat) (s.mem.read (s.pc.toNat + 1)) = .ok i →
    step s = exec i (beginTick (nextHostTick s).input (beforeTick s)) ∧
    ∀ t, t = beginTick (nextHostTick s).input (beforeTick s) →
      SameRegs s t ∧ t.i = s.i ∧ t.pc = s.pc ∧ t.mem = s.mem ∧ SameStack s t ∧ t.display = s.display ∧
      t.chg = false ∧ t.flt = none ∧ t.params = s.params ∧ t.input = (nextHostTick s).input

/-- R60, R62 and the order of R242: what a tick does, in its four cases; a halted core does nothing by D15 and a fault is
taken as log entry 1 says. -/
def Obligations.TickFollowsItsOrder : Prop :=
  ∀ (inp : TickInput) (s : State),
    (¬ s.running → tick inp s = .next s) ∧
    (s.running → 0xFFE < s.pc.toNat →
      tick inp s = .next ((beginTick inp s).withFault .fetchOutOfRange 0 0 0)) ∧
    (s.running → s.pc.toNat ≤ 0xFFE → ∀ e, decode (fetchWord s) = .error e →
      tick inp s = .next ((beginTick inp s).withFault .decodeError (fetchWord s) 0 0)) ∧
    (s.running → s.pc.toNat ≤ 0xFFE → ∀ i, decode (fetchWord s) = .ok i →
      tick inp s = exec i (beginTick inp s)) ∧
    (beginTick inp s).chg = false

/-- R63: a pc above 0xFFE faults at the fetch with the pc recorded, whatever memory holds: memory is not read. -/
def Obligations.FetchOutOfRangeFaults : Prop :=
  ∀ (inp : TickInput) (s : State) (m : Memory), s.running → 0xFFE < s.pc.toNat →
    ∃ t r, tick inp (s.setMem m) = .next t ∧ t.mem = m ∧ t.flt = some r ∧ r.code = .fetchOutOfRange ∧ r.pc = s.pc

/-- R61, R244: a halted core does nothing at a tick or a decrement, its state stays frozen however many steps are made,
and construct() clears the fault (decision D15, log entry 15). -/
def Obligations.HaltedCoreIsFrozen : Prop :=
  ∀ s : State, ¬ s.running →
    (∀ inp, tick inp s = .next s) ∧ decreaseTimers s = s ∧ (∀ k t, runsTo k s t → t = s) ∧
    (∀ k, runsTo k s s) ∧ (construct s).running

/-- R62: after a tick of a running core CHG is true exactly when the tick executed `00E0` or `Dxyn` without a fault. -/
def Obligations.ChangedFlagReportsTheTick : Prop :=
  ∀ (inp : TickInput) (s t : State), s.running → tick inp s = .next t →
    (t.flt ≠ none → t.chg = false) ∧
    (t.chg = true ↔ t.flt = none ∧ ∃ i, decode (fetchWord s) = .ok i ∧ drawing i = true)

/-- R64, R243: whatever instruction faults, the tick leaves every register, the stack, memory, the display, the timers and
the pc as they were, with CHG false; only FLT is written (decision D9, log entry 14). -/
def Obligations.FaultCommitsNothing : Prop :=
  ∀ (inp : TickInput) (s t : State), s.running → tick inp s = .next t → t.flt ≠ none →
    t.v = s.v ∧ t.i = s.i ∧ t.stack = s.stack ∧ t.sp = s.sp ∧ t.mem = s.mem ∧ t.display = s.display ∧
    t.dt = s.dt ∧ t.st = s.st ∧ t.pc = s.pc ∧ t.chg = false

/-- R241, R32: the codes, what raises each and under which condition (MEM_OUT_OF_RANGE: some byte the decoded instruction
would touch lies above 0xFFF), and what each records; what does not apply is 0 (decisions D8 to D11, D15; log entries 9,
14, 15). -/
def Obligations.FaultRecordsFollowTheTable : Prop :=
  (FaultCode.number .fetchOutOfRange = 1 ∧ FaultCode.number .decodeError = 2 ∧
    FaultCode.number .stackOverflow = 3 ∧ FaultCode.number .stackUnderflow = 4 ∧
    FaultCode.number .memOutOfRange = 5 ∧ FaultCode.number .reservedWrite = 6 ∧
    FaultCode.number .keyOutOfRange = 7) ∧
  ∀ (inp : TickInput) (s t : State) (r : FaultRecord), s.running → tick inp s = .next t → t.flt = some r →
    r.pc = s.pc ∧ (r.code ≠ .fetchOutOfRange → r.op = fetchWord s) ∧ r.consistent ∧
    (r.code = .stackOverflow → s.sp.val = 16) ∧ (r.code = .stackUnderflow → s.sp.val = 0) ∧
    (r.code = .memOutOfRange → r.addr = max s.i.toNat 0x1000 ∧ ∃ i, decode (fetchWord s) = .ok i ∧
      0 < touchedBytes i ∧ 0xFFF < s.i.toNat + touchedBytes i - 1) ∧
    (r.code = .reservedWrite → r.addr = s.i.toNat ∧ s.i.toNat < 0x200) ∧
    (r.code = .keyOutOfRange → ∃ x, r.value = s.getV x ∧
      (decode (fetchWord s) = .ok (.skp x) ∨ decode (fetchWord s) = .ok (.sknp x)))

/-- R60, R105, R243: a step always answers a next state: every instruction, every invalid word and every fault has its
effect, whatever the host's inputs and the free values (that a fault is a next state is log entry 1). -/
def Obligations.EveryStepAnswersANextState : Prop :=
  ∀ (k : Nat) (s : State), ∃ t, runsTo k s t

/-- R23, R24: the pc advances only through the outcome: without a fault it is 2 further, or 4 further after an
instruction that may skip, or where a jump goes, or unchanged after `Fx0A`, modulo 2^16 (decision D7, log entry 13). -/
def Obligations.PcAdvancesOnlyByTheOutcome : Prop :=
  ∀ (i : Instr) (s t : State), exec i s = .next t → t.flt = s.flt → s.running → jumping i = false →
    (t.pc.toNat = (s.pc.toNat + 2) % 65536 ∨
      (skipping i = true ∧ t.pc.toNat = (s.pc.toNat + 4) % 65536) ∨
      (∃ x, i = .ldVxK x ∧ t.pc = s.pc))

/-! ### Control transfer (40_flow.md) -/

/-- R130, R27: RET. That it lands 2 after the popped address is decision D5, that the slot keeps its value D6 (log entry 12). -/
def Obligations.RetResumesAfterTheCall : Prop :=
  RowDecodes 0xFFFF 0x00EE (fun _ => .ret) ∧
  ∀ s : State,
    (s.sp.val = 0 → exec .ret s = .next (s.withFault .stackUnderflow 0x00EE 0 0)) ∧
    (∀ k : Fin 16, s.sp.val = k.val + 1 → ∃ t, exec .ret s = .next t ∧
      t.sp.val = k.val ∧ t.pc.toNat = ((s.stack.get k).toNat + 2) % 65536 ∧ t.stack = s.stack ∧ t.i = s.i ∧
      SameRegs s t ∧ SameMemory s t ∧ SameTimers s t ∧ SameScreen s t ∧ SameRest s t)

/-- R131: JP nnn: no fault at the jump; the target is above 0xFFE, so that the next fetch faults, only for `nnn = 0xFFF`. -/
def Obligations.JumpSetsThePc : Prop :=
  ∀ (nnn : Addr12) (s : State), ∃ t, exec (.jp nnn) s = .next t ∧
    t.pc.toNat = nnn.toNat ∧ (0xFFE < t.pc.toNat ↔ nnn = 0xFFF) ∧ OnlyPc s t

/-- R132: CALL nnn. That it pushes its own address is decision D5 (log entry 12). -/
def Obligations.CallPushesItsOwnAddress : Prop :=
  RowDecodes 0xF000 0x2000 (fun w => .call (fieldNnn w)) ∧
  ∀ (nnn : Addr12) (s : State),
    (s.sp.val = 16 →
      exec (.call nnn) s = .next (s.withFault .stackOverflow (formatNnn 0x2 nnn) 0 0)) ∧
    (∀ k : Fin 16, s.sp.val = k.val → ∃ t, exec (.call nnn) s = .next t ∧
      t.sp.val = k.val + 1 ∧ t.stack.get k = s.pc ∧ (∀ j, j ≠ k → t.stack.get j = s.stack.get j) ∧
      t.pc.toNat = nnn.toNat ∧ t.i = s.i ∧
      SameRegs s t ∧ SameMemory s t ∧ SameTimers s t ∧ SameScreen s t ∧ SameRest s t)

/-- C7, D5: a call and the return that pops its entry continue after the call, with the stack pointer as it was,
whatever ran between them (nested calls too), as long as it left `SP` as the call left it and that entry alone. The stack
content rests on D5 (log entry 12). -/
def Obligations.CallThenReturnContinuesAfterTheCall : Prop :=
  ∀ (nnn : Addr12) (s t u w : State) (k : Fin 16), s.sp.val = k.val → exec (.call nnn) s = .next t →
    u.sp = t.sp → u.stack.get k = t.stack.get k → exec .ret u = .next w →
    w.pc.toNat = (s.pc.toNat + 2) % 65536 ∧ w.sp = s.sp ∧ w.flt = u.flt

/-- R133, R134: the skips that compare with an immediate. -/
def Obligations.SkipsCompareWithAnImmediate : Prop :=
  ∀ (x : Reg) (kk : Byte) (s : State),
    (∃ t, exec (.seVxKk x kk) s = .next t ∧ OnlyPc s t ∧
      ((s.getV x).toNat = kk.toNat → Skip s t) ∧ ((s.getV x).toNat ≠ kk.toNat → Next s t)) ∧
    (∃ t, exec (.sneVxKk x kk) s = .next t ∧ OnlyPc s t ∧
      ((s.getV x).toNat ≠ kk.toNat → Skip s t) ∧ ((s.getV x).toNat = kk.toNat → Next s t))

/-- R135, R136: the skips that compare two registers, and their words with a low nibble other than 0, which are decode
errors (D14, D21; log entries 4, 16). -/
def Obligations.SkipsCompareTwoRegisters : Prop :=
  RowDecodes 0xF00F 0x5000 (fun w => .seVxVy (fieldX w) (fieldY w)) ∧
  RowDecodes 0xF00F 0x9000 (fun w => .sneVxVy (fieldX w) (fieldY w)) ∧
  (∀ op : Word, op &&& 0xF000 = 0x5000 ∨ op &&& 0xF000 = 0x9000 → op &&& 0xF ≠ 0 → ∃ e, decode op = .error e) ∧
  ∀ (x y : Reg) (s : State),
    (∃ t, exec (.seVxVy x y) s = .next t ∧ OnlyPc s t ∧
      ((s.getV x).toNat = (s.getV y).toNat → Skip s t) ∧ ((s.getV x).toNat ≠ (s.getV y).toNat → Next s t)) ∧
    (∃ t, exec (.sneVxVy x y) s = .next t ∧ OnlyPc s t ∧
      ((s.getV x).toNat ≠ (s.getV y).toNat → Skip s t) ∧ ((s.getV x).toNat = (s.getV y).toNat → Next s t))

/-- R137: JP V0, nnn: at most 0x10FE, not masked to 12 bits (decision D7, log entry 13); `V0` whatever the second nibble. -/
def Obligations.JumpWithOffsetAddsV0 : Prop :=
  RowDecodes 0xF000 0xB000 (fun w => .jpV0 (fieldNnn w)) ∧
  ∀ (nnn : Addr12) (s : State), ∃ t, exec (.jpV0 nnn) s = .next t ∧
    t.pc.toNat = nnn.toNat + (s.getV 0).toNat ∧ OnlyPc s t

/-! ### Register loads and the ALU (41_alu.md) -/

/-- R151, R153: the loads. -/
def Obligations.LoadsWriteTheRegister : Prop :=
  (∀ (x : Reg) (kk : Byte) (s : State), ∃ t, exec (.ldVxKk x kk) s = .next t ∧ Writes x kk s t) ∧
  ∀ (x y : Reg) (s : State), ∃ t, exec (.ldVxVy x y) s = .next t ∧ Writes x (s.getV y) s t

/-- R152: ADD immediate wraps modulo 256 and writes no flag. -/
def Obligations.AddImmediateWrapsWithoutFlag : Prop :=
  ∀ (x : Reg) (kk : Byte) (s : State), ∃ t, exec (.addVxKk x kk) s = .next t ∧
    (t.getV x).toNat = ((s.getV x).toNat + kk.toNat) % 256 ∧ (x ≠ VF → t.getV VF = s.getV VF) ∧
    (∀ r, r ≠ x → t.getV r = s.getV r) ∧ Next s t ∧ OnlyRegs s t

/-- R154 to R157: the bitwise operations, bit by bit; VF is unchanged unless it is the destination (decision D16, log
entry 16). -/
def Obligations.BitwiseOperationsWriteNoFlag : Prop :=
  RowDecodes 0xF00F 0x8001 (fun w => .orVxVy (fieldX w) (fieldY w)) ∧
  RowDecodes 0xF00F 0x8002 (fun w => .andVxVy (fieldX w) (fieldY w)) ∧
  RowDecodes 0xF00F 0x8003 (fun w => .xorVxVy (fieldX w) (fieldY w)) ∧
  ∀ (x y : Reg) (s : State),
    (∃ t, exec (.orVxVy x y) s = .next t ∧ Writes x (t.getV x) s t ∧
      ∀ k, k < 8 → (t.getV x).getLsbD k = ((s.getV x).getLsbD k || (s.getV y).getLsbD k)) ∧
    (∃ t, exec (.andVxVy x y) s = .next t ∧ Writes x (t.getV x) s t ∧
      ∀ k, k < 8 → (t.getV x).getLsbD k = ((s.getV x).getLsbD k && (s.getV y).getLsbD k)) ∧
    (∃ t, exec (.xorVxVy x y) s = .next t ∧ Writes x (t.getV x) s t ∧
      ∀ k, k < 8 → (t.getV x).getLsbD k = ((s.getV x).getLsbD k).xor ((s.getV y).getLsbD k))

/-- R158: ADD with carry flag; the flag is written last, so that with `x = F` VF holds the carry (D4, log entry 16). -/
def Obligations.AddRegistersSetsCarry : Prop :=
  RowDecodes 0xF00F 0x8004 (fun w => .addVxVy (fieldX w) (fieldY w)) ∧
  ∀ (x y : Reg) (s : State), ∃ t, exec (.addVxVy x y) s = .next t ∧
    WritesFlag x (BitVec.ofNat 8 (((s.getV x).toNat + (s.getV y).toNat) % 256))
      (if 255 < (s.getV x).toNat + (s.getV y).toNat then 1 else 0) s t

/-- R159, R160: both subtractions, with the strict flag, written last (D4, log entry 16). That `8xy7` exists is general
knowledge (C6, log entry 4). -/
def Obligations.SubtractSetsStrictNoBorrow : Prop :=
  RowDecodes 0xF00F 0x8005 (fun w => .subVxVy (fieldX w) (fieldY w)) ∧
  RowDecodes 0xF00F 0x8007 (fun w => .subnVxVy (fieldX w) (fieldY w)) ∧
  ∀ (x y : Reg) (s : State),
    (∃ t, exec (.subVxVy x y) s = .next t ∧
      WritesFlag x (BitVec.ofInt 8 (((s.getV x).toNat : Int) - (s.getV y).toNat))
        (if (s.getV y).toNat < (s.getV x).toNat then 1 else 0) s t) ∧
    (∃ t, exec (.subnVxVy x y) s = .next t ∧
      WritesFlag x (BitVec.ofInt 8 (((s.getV y).toNat : Int) - (s.getV x).toNat))
        (if (s.getV x).toNat < (s.getV y).toNat then 1 else 0) s t)

/-- R161, R162: the shifts, for both values of SHIFT_SRC (D3, log entry 2), the flag written last (D4, log entry 16). -/
def Obligations.ShiftsMoveTheLostBitToVF : Prop :=
  RowDecodes 0xF00F 0x8006 (fun w => .shrVxVy (fieldX w) (fieldY w)) ∧
  RowDecodes 0xF00F 0x800E (fun w => .shlVxVy (fieldX w) (fieldY w)) ∧
  ∀ (x y : Reg) (s : State) (src : Byte),
    ((s.params.shiftSrc = .vy ∧ src = s.getV y) ∨ (s.params.shiftSrc = .vx ∧ src = s.getV x)) →
    (∃ t, exec (.shrVxVy x y) s = .next t ∧
      WritesFlag x (BitVec.ofNat 8 (src.toNat / 2)) (BitVec.ofNat 8 (src.toNat % 2)) s t) ∧
    (∃ t, exec (.shlVxVy x y) s = .next t ∧
      WritesFlag x (BitVec.ofNat 8 (src.toNat * 2 % 256)) (BitVec.ofNat 8 (src.toNat / 128)) s t)

/-- R163: RND masks the tick's byte, for every byte (D13, log entry 5); so no bit outside the mask is ever set. -/
def Obligations.RandomByteIsMasked : Prop :=
  RowDecodes 0xF000 0xC000 (fun w => .rnd (fieldX w) (fieldKk w)) ∧
  ∀ (x : Reg) (kk : Byte) (s : State), ∃ t, exec (.rnd x kk) s = .next t ∧
    Writes x (s.input.rnd &&& kk) s t ∧ ∀ k, kk.getLsbD k = false → (t.getV x).getLsbD k = false

/-! ### The index register and memory (42_index_memory.md) -/

/-- R180, R181, R182: setting the index register; `Fx1E` wraps modulo 2^16 and writes no flag (D8, D16; log entries 14, 16). -/
def Obligations.IndexInstructionsSetI : Prop :=
  RowDecodes 0xF000 0xA000 (fun w => .ldI (fieldNnn w)) ∧
  RowDecodes 0xF0FF 0xF01E (fun w => .addIVx (fieldX w)) ∧
  RowDecodes 0xF0FF 0xF029 (fun w => .ldFVx (fieldX w)) ∧
  (∀ (nnn : Addr12) (s : State), ∃ t, exec (.ldI nnn) s = .next t ∧
    t.i.toNat = nnn.toNat ∧ Next s t ∧ OnlyIndex s t) ∧
  ∀ (x : Reg) (s : State),
    (∃ t, exec (.addIVx x) s = .next t ∧
      t.i.toNat = (s.i.toNat + (s.getV x).toNat) % 65536 ∧ Next s t ∧ OnlyIndex s t) ∧
    (∃ t, exec (.ldFVx x) s = .next t ∧
      t.i.toNat = (s.getV x).toNat * 5 ∧ Next s t ∧ OnlyIndex s t)

/-- R183: BCD: the digits (on a memory in canonical form, which every step keeps), the two faults (D8, D9, D10; log
entry 14), and every other byte of memory unchanged. -/
def Obligations.BcdStoresThreeDigits : Prop :=
  RowDecodes 0xF0FF 0xF033 (fun w => .ldBVx (fieldX w)) ∧
  ∀ (x : Reg) (s : State),
    (0xFFF < s.i.toNat + 2 →
      exec (.ldBVx x) s = .next (s.withFault .memOutOfRange (encode (.ldBVx x)) (max s.i.toNat 0x1000) 0)) ∧
    (s.i.toNat < 0x200 →
      exec (.ldBVx x) s = .next (s.withFault .reservedWrite (encode (.ldBVx x)) s.i.toNat 0)) ∧
    (0x200 ≤ s.i.toNat → s.i.toNat + 2 ≤ 0xFFF → ∃ t, exec (.ldBVx x) s = .next t ∧
      (s.mem.wf → (t.mem.read s.i.toNat).toNat = (s.getV x).toNat / 100 ∧
        (t.mem.read (s.i.toNat + 1)).toNat = (s.getV x).toNat / 10 % 10 ∧
        (t.mem.read (s.i.toNat + 2)).toNat = (s.getV x).toNat % 10) ∧
      SameMemoryOutside s.i.toNat 3 s t ∧ t.i = s.i ∧ Next s t ∧ SameRegs s t ∧ SameStack s t ∧
      SameTimers s t ∧ SameScreen s t ∧ SameRest s t)

/-- R184: storing `V[0]` to `V[x]`: the bytes (on a memory in canonical form), the index, the two faults (D8, D9, D10; log
entry 14), and every other byte unchanged. -/
def Obligations.StoreRegistersWritesVZeroToVx : Prop :=
  RowDecodes 0xF0FF 0xF055 (fun w => .ldMemVx (fieldX w)) ∧
  ∀ (x : Reg) (s : State),
    (0xFFF < s.i.toNat + x.val →
      exec (.ldMemVx x) s = .next (s.withFault .memOutOfRange (encode (.ldMemVx x)) (max s.i.toNat 0x1000) 0)) ∧
    (s.i.toNat < 0x200 →
      exec (.ldMemVx x) s = .next (s.withFault .reservedWrite (encode (.ldMemVx x)) s.i.toNat 0)) ∧
    (0x200 ≤ s.i.toNat → s.i.toNat + x.val ≤ 0xFFF → ∃ t, exec (.ldMemVx x) s = .next t ∧
      (s.mem.wf → ∀ k : Reg, k ≤ x → t.mem.read (s.i.toNat + k.val) = s.getV k) ∧
      SameMemoryOutside s.i.toNat (x.val + 1) s t ∧ t.i.toNat = s.i.toNat + x.val + 1 ∧ Next s t ∧
      SameRegs s t ∧ SameStack s t ∧ SameTimers s t ∧ SameScreen s t ∧ SameRest s t)

/-- R185: loading `V[0]` to `V[x]`, also from below 0x200; the fault (D8, D9; log entry 14). -/
def Obligations.LoadRegistersReadsVZeroToVx : Prop :=
  RowDecodes 0xF0FF 0xF065 (fun w => .ldVxMem (fieldX w)) ∧
  ∀ (x : Reg) (s : State),
    (0xFFF < s.i.toNat + x.val →
      exec (.ldVxMem x) s = .next (s.withFault .memOutOfRange (encode (.ldVxMem x)) (max s.i.toNat 0x1000) 0)) ∧
    (s.i.toNat + x.val ≤ 0xFFF → ∃ t, exec (.ldVxMem x) s = .next t ∧
      (∀ k : Reg, k ≤ x → t.getV k = s.mem.read (s.i.toNat + k.val)) ∧
      (∀ k : Reg, x < k → t.getV k = s.getV k) ∧
      t.i.toNat = (s.i.toNat + x.val + 1) % 65536 ∧ Next s t ∧ SameMemory s t ∧ SameStack s t ∧
      SameTimers s t ∧ SameScreen s t ∧ SameRest s t)

/-- R84 (with R72): a store is fetched as written: after `Fx55`, a fetch of two of the stored bytes gives the two
registers, big-endian, and nothing is needed between. -/
def Obligations.StoredBytesAreFetchedAsWritten : Prop :=
  ∀ (x : Reg) (s t : State), s.mem.wf → exec (.ldMemVx x) s = .next t → t.flt = s.flt → s.running →
    ∀ k j : Reg, j.val = k.val + 1 → j ≤ x →
      fetchWord { t with pc := s.i + BitVec.ofNat 16 k.val } = s.getV k ++ s.getV j

/-! ### The display (43_display.md) -/

/-- R200: CLS. -/
def Obligations.ClearScreenClearsEveryPixel : Prop :=
  ∀ s : State, ∃ t, exec .cls s = .next t ∧ (∀ px py, t.pixel px py = false) ∧ t.chg = true ∧ t.i = s.i ∧
    Next s t ∧ SameRegs s t ∧ SameMemory s t ∧ SameStack s t ∧ SameTimers s t ∧ SameRest s t

/-- R201 to R204: DRW inverts exactly the pixels under the 1 bits of the sprite, both coordinates wrapping; VF says whether
a set pixel was unset; CHG is set unconditionally. Bit 7 is leftmost by D18, the flag written last by D4 (log entry
16), the fault D9 (log entry 14). -/
def Obligations.DrawTogglesTheSprite : Prop :=
  RowDecodes 0xF000 0xD000 (fun w => .drw (fieldX w) (fieldY w) (fieldN w).toNat) ∧
  ∀ (x y : Reg) (n : Nat) (s : State), n ≤ 15 →
    (¬ spriteInMemory n s → exec (.drw x y n) s =
      .next (s.withFault .memOutOfRange (encode (.drw x y n)) (max s.i.toNat 0x1000) 0)) ∧
    (spriteInMemory n s → ∃ t, exec (.drw x y n) s = .next t ∧
      (∀ px py, underSprite x y n s px py → t.pixel px py = !s.pixel px py) ∧
      (∀ px py, ¬ underSprite x y n s px py → t.pixel px py = s.pixel px py) ∧
      ((∃ px py, s.pixel px py = true ∧ t.pixel px py = false) → t.getV VF = 1) ∧
      ((¬ ∃ px py, s.pixel px py = true ∧ t.pixel px py = false) → t.getV VF = 0) ∧
      t.chg = true ∧ (∀ r, r ≠ VF → t.getV r = s.getV r) ∧ t.i = s.i ∧ Next s t ∧
      SameMemory s t ∧ SameStack s t ∧ SameTimers s t ∧ SameRest s t)

/-- R205: drawing the same sprite at the same origin twice restores the display, and the second VF is 1 iff a pixel
under the sprite was unset before the first draw (D18, log entry 16). -/
def Obligations.DrawingTwiceRestoresTheDisplay : Prop :=
  ∀ (x y : Reg) (n : Nat) (s t u w : State), n ≤ 15 → spriteInMemory n s →
    exec (.drw x y n) s = .next t → u.display = t.display → u.i = s.i → SameMemory s u →
    u.getV x = s.getV x → u.getV y = s.getV y → exec (.drw x y n) u = .next w →
    w.display = s.display ∧ (w.getV VF = 1 ↔ ∃ px py, underSprite x y n s px py ∧ s.pixel px py = false)

/-- R206, R207, R256: the read-outs (D22, log entry 16). `refresh_screen()` after a tick says whether that tick drew. -/
def Obligations.ReadOutsReportTheState : Prop :=
  ∀ s : State,
    (∀ px py, (vram s).pixel px py = s.pixel px py) ∧ (status s).flt = s.flt ∧
    ((status s).soundActive = true ↔ s.st.toNat ≠ 0) ∧
    ∀ (inp : TickInput) (t : State), s.running → tick inp s = .next t →
      (refreshScreen t = true ↔ t.running ∧ ∃ i, decode (fetchWord s) = .ok i ∧ drawing i = true)

/-! ### Keys and timers (44_keys_timers.md, 60_exceptions.md) -/

/-- R220, R221: the key skips, with the fault on a value above 0x0F (decision D11, log entry 15). -/
def Obligations.KeySkipsTestTheTicksKeys : Prop :=
  RowDecodes 0xF0FF 0xE09E (fun w => .skp (fieldX w)) ∧ RowDecodes 0xF0FF 0xE0A1 (fun w => .sknp (fieldX w)) ∧
  ∀ (x : Reg) (s : State),
    (0x0F < (s.getV x).toNat →
      exec (.skp x) s = .next (s.withFault .keyOutOfRange (encode (.skp x)) 0 (s.getV x)) ∧
      exec (.sknp x) s = .next (s.withFault .keyOutOfRange (encode (.sknp x)) 0 (s.getV x))) ∧
    (∀ k : Key, (s.getV x).toNat = k.val →
      (∃ t, exec (.skp x) s = .next t ∧ OnlyPc s t ∧
        (s.input.keys.get k = true → Skip s t) ∧ (s.input.keys.get k = false → Next s t)) ∧
      (∃ t, exec (.sknp x) s = .next t ∧ OnlyPc s t ∧
        (s.input.keys.get k = false → Skip s t) ∧ (s.input.keys.get k = true → Next s t)))

/-- R223, R224: with no key down `Fx0A` waits, whatever the exit signal; with a key down it stores the code of one that
is down; and every key that is down can be the one stored (D12: a draw; log entry 7). -/
def Obligations.KeyWaitStoresAPressedKey : Prop :=
  RowDecodes 0xF0FF 0xF00A (fun w => .ldVxK (fieldX w)) ∧
  ∀ (x : Reg) (s : State),
    ((∀ k, s.input.keys.get k = false) → ∀ exit, exec (.ldVxK x) (s.withExit exit) = .next (s.withExit exit)) ∧
    ((∃ k, s.input.keys.get k = true) → ∃ k t, s.input.keys.get k = true ∧ exec (.ldVxK x) s = .next t ∧
      Writes x (BitVec.ofNat 8 k.val) s t) ∧
    (∀ k, s.input.keys.get k = true → ∃ pick t, exec (.ldVxK x) (s.withPick pick) = .next t ∧
      (t.getV x).toNat = k.val)

/-- R222, R225, R226: the timer instructions. -/
def Obligations.TimerInstructionsCopy : Prop :=
  ∀ (x : Reg) (s : State),
    (∃ t, exec (.ldVxDt x) s = .next t ∧ Writes x s.dt s t) ∧
    (∃ t, exec (.ldDtVx x) s = .next t ∧ t.dt = s.getV x ∧ t.st = s.st ∧ t.i = s.i ∧ Next s t ∧
      SameRegs s t ∧ SameMemory s t ∧ SameStack s t ∧ SameScreen s t ∧ SameRest s t) ∧
    (∃ t, exec (.ldStVx x) s = .next t ∧ t.st = s.getV x ∧ t.dt = s.dt ∧ t.i = s.i ∧ Next s t ∧
      SameRegs s t ∧ SameMemory s t ∧ SameStack s t ∧ SameScreen s t ∧ SameRest s t)

/-- R250: decrease_timers() counts each timer down, saturating at zero, and writes nothing else; called `n` times it
takes `n` off, never below zero; a halted core ignores it (decision D15, log entry 15). -/
def Obligations.TimersCountDownToZero : Prop :=
  ∀ (n : Nat) (s : State),
    (s.running → (decreaseTimersBy n s).dt.toNat = s.dt.toNat - n ∧
      (decreaseTimersBy n s).st.toNat = s.st.toNat - n) ∧
    (¬ s.running → decreaseTimersBy n s = s) ∧
    { decreaseTimersBy n s with dt := s.dt, st := s.st } = s

/-- R251, R252: under COUPLED exactly one decrement comes immediately before every tick; under HOST_SCHEDULED as many as
the host schedules, any number, zero included, and with nothing scheduled a free number of them before a tick on free
arguments (decision D2; log entries 2, 5, 6). -/
def Obligations.TimerModesFixTheCadence : Prop :=
  ∀ s : State, s.running →
    (s.params.timerMode = .coupled →
      step s = tick (nextHostTick s).input (decreaseTimers (consumeHostTick s))) ∧
    (s.params.timerMode = .hostScheduled → ∀ (n : Nat) (inp : TickInput) (rest : List HostTick),
      s.pending = { decrements := n, input := inp } :: rest →
      step s = tick inp (decreaseTimersBy n { s with pending := rest })) ∧
    (s.params.timerMode = .hostScheduled → s.pending = [] →
      step s = tick (freeHostTick s.draws).input
        (decreaseTimersBy (Config.freeDecrements s.draws) { s with draws := s.draws + 1 }))

/-- R281: under COUPLED, `Fx15` setting DT to `v > 0` and `Fy07` as the next instruction reads `v - 1` (D2, log entry 6). -/
def Obligations.CoupledDelayReadsOneLess : Prop :=
  ∀ (x y : Reg) (s t u : State), s.running → s.params.timerMode = .coupled →
    s.pc.toNat ≤ 0xFFE → decode (fetchWord s) = .ok (.ldDtVx x) → step s = .next t →
    t.pc.toNat ≤ 0xFFE → decode (fetchWord t) = .ok (.ldVxDt y) → step t = .next u →
    0 < (s.getV x).toNat → (u.getV y).toNat = (s.getV x).toNat - 1

/-! ### What no other instruction changes -/

/-- R20, R21: an instruction changes a general register only if it names it as its destination, or it is one of the six
that write a flag and the register is VF. -/
def Obligations.RegistersChangeOnlyAsDestinationOrFlag : Prop :=
  ∀ (i : Instr) (s t : State) (r : Reg), exec i s = .next t → t.getV r ≠ s.getV r →
    destination i r = true ∨ (writesFlag i = true ∧ r = VF)

/-- R25, R35: `I` is written only by `Annn`, `Fx1E`, `Fx29`, `Fx55` and `Fx65`. -/
def Obligations.IndexIsWrittenOnlyByItsFive : Prop :=
  ∀ (i : Instr) (s t : State), exec i s = .next t → t.i ≠ s.i → writesIndex i = true

/-- R27: only `2nnn` and `00EE` write or read the stack and its pointer, and a pop clears nothing (D6, log entry 12): every
other instruction leaves them alone and does the same whatever they hold. -/
def Obligations.StackIsTouchedOnlyByCallAndReturn : Prop :=
  (∀ (i : Instr) (s t : State), exec i s = .next t → usesStack i = false → SameStack s t) ∧
  (∀ (i : Instr) (s : State) (sp : Fin 17) (stack : Vector Word 16), usesStack i = false →
    exec i { s with sp := sp, stack := stack } =
      mapNext (fun t => { t with sp := sp, stack := stack }) (exec i s)) ∧
  ∀ s t : State, exec .ret s = .next t → t.stack = s.stack

/-- R28, R29: DT is written only by `Fx15`, ST only by `Fx18`, the display only by `00E0` and `Dxyn`; no instruction but
`Fx07` reads DT, none reads ST, and none but `Dxyn` reads the display: another instruction does the same whatever they
hold, and `00E0` whatever the display holds. -/
def Obligations.DevicesAreUsedOnlyByTheirInstructions : Prop :=
  (∀ (i : Instr) (s t : State), exec i s = .next t →
    (t.dt ≠ s.dt → ∃ x, i = .ldDtVx x) ∧ (t.st ≠ s.st → ∃ x, i = .ldStVx x) ∧
    (t.display ≠ s.display → drawing i = true)) ∧
  (∀ (i : Instr) (s : State) (b : Byte), (∀ x, i ≠ .ldVxDt x) → (∀ x, i ≠ .ldDtVx x) →
    exec i (s.setDt b) = mapNext (fun t => t.setDt b) (exec i s)) ∧
  (∀ (x : Reg) (s : State) (b : Byte), exec (.ldDtVx x) (s.setDt b) = exec (.ldDtVx x) s) ∧
  (∀ (i : Instr) (s : State) (b : Byte), (∀ x, i ≠ .ldStVx x) →
    exec i (s.setSt b) = mapNext (fun t => t.setSt b) (exec i s)) ∧
  (∀ (x : Reg) (s : State) (b : Byte), exec (.ldStVx x) (s.setSt b) = exec (.ldStVx x) s) ∧
  (∀ (i : Instr) (s : State) (d : Display), drawing i = false →
    exec i (s.withDisplay d) = mapNext (State.withDisplay d) (exec i s)) ∧
  ∀ (s : State) (d : Display), exec .cls (s.withDisplay d) = exec .cls s

/-- R75, R77: an instruction stores only in the bytes from `I` that its row names, and only where they lie at or above
0x200 and in memory (D8, D10; log entry 14); every other byte reads as before. -/
def Obligations.StoresStayInTheirBytes : Prop :=
  ∀ (i : Instr) (s t : State) (a : Nat), exec i s = .next t → t.mem.read a ≠ s.mem.read a →
    baseAddress s ≤ a ∧ a < baseAddress s + storedBytes i ∧ 0x200 ≤ a ∧ a ≤ 0xFFF

/-- R55, R56, R224: the exit signal is never read, the keys are read only by `Ex9E`, `ExA1` and `Fx0A`, and the random
byte only by `Cxkk`: changing an input changes nothing else in what another instruction does; `Fx0A` waits on when the
exit signal comes with no key down. -/
def Obligations.InputsAreReadOnlyByTheirInstructions : Prop :=
  (∀ (i : Instr) (s : State) (exit : Bool), exec i (s.withExit exit) = mapNext (State.withExit exit) (exec i s)) ∧
  (∀ (i : Instr) (s : State) (keys : Vector Bool 16), readsKeys i = false →
    exec i (s.withKeys keys) = mapNext (State.withKeys keys) (exec i s)) ∧
  (∀ (i : Instr) (s : State) (b : Byte), (∀ x kk, i ≠ .rnd x kk) →
    exec i (s.withRnd b) = mapNext (State.withRnd b) (exec i s)) ∧
  ∀ (x : Reg) (s : State), s.input.exit = true → (∀ k, s.input.keys.get k = false) →
    exec (.ldVxK x) s = .next s

/-- R34: the core keeps no key state between ticks (D26): what the last tick's arguments were, which the model keeps in
`input` (log entry 5), changes nothing in the next step of a running core. -/
def Obligations.NoInputIsKeptBetweenTicks : Prop :=
  ∀ (s : State) (inp : TickInput), s.running → step { s with input := inp } = step s

/-! ### Reset and the host's loads (70_reset_and_hazards.md) -/

/-- R36, R270: the state after construct(), every piece at the value of the table (display and CHG D23, FLT D15; log entries
15, 16); the model's reset state has these values too. -/
def Obligations.ConstructGivesTheResetValues : Prop :=
  ∀ s t : State, t = construct s ∨ t = State.reset →
    (∀ a, t.mem.read a = 0) ∧ (∀ r, t.getV r = 0) ∧ t.i = 0 ∧ t.pc = 0x200 ∧ (∀ k, t.stack.get k = 0) ∧
    t.sp = 0 ∧ t.dt = 0 ∧ t.st = 0 ∧ (∀ px py, t.pixel px py = false) ∧ t.chg = false ∧ t.flt = none

/-- R271: load_font() writes FONT to 0x000-0x04F and nothing else (D17, log entry 3); R273: it is refused after the first
tick (D19, log entry 10). -/
def Obligations.FontLoadsAtZero : Prop :=
  ∀ s : State,
    (s.started = true → loadFont s = .refused .loadAfterFirstTick) ∧
    (s.started = false → ∃ m, loadFont s = .next (s.setMem m) ∧
      (s.mem.wf → ∀ (d : Fin 16) (r : Fin 5), m.read (5 * d.val + r.val) = (s.params.font.get d).get r) ∧
      ∀ a, 80 ≤ a → m.read a = s.mem.read a)

/-- R272: load_rom(bytes) writes up to 3584 bytes at 0x200, or returns ROM_TOO_LARGE and writes nothing; R273: it is
refused after the first tick, and a tick of a running core ends the loading (D19; log entries 10, 16). -/
def Obligations.RomLoadsAtProgramBase : Prop :=
  (∀ (bytes : List Byte) (s : State),
    (s.started = true → loadRom bytes s = .refused .loadAfterFirstTick) ∧
    (s.started = false → 3584 < bytes.length → loadRom bytes s = .next (s, .romTooLarge)) ∧
    (s.started = false → bytes.length ≤ 3584 → ∃ m, loadRom bytes s = .next (s.setMem m, .ok) ∧
      (s.mem.wf → ∀ (k : Nat) (h : k < bytes.length), m.read (0x200 + k) = bytes[k]) ∧
      ∀ a, (a < 0x200 ∨ 0x200 + bytes.length ≤ a) → m.read a = s.mem.read a)) ∧
  ∀ (inp : TickInput) (s t : State), s.running → tick inp s = .next t → t.started = true

/-- R85, R274, R275: memory and the core after the boot order, `I` and every other register zero (D15, D17, D19, D23; log
entries 3, 15, 16). -/
def Obligations.BootLaysOutMemory : Prop :=
  ∀ (bytes : List Byte) (s : State), bytes.length ≤ 3584 → ∃ t, boot bytes s = .next (t, .ok) ∧
    (∀ (d : Fin 16) (r : Fin 5), t.mem.read (5 * d.val + r.val) = (s.params.font.get d).get r) ∧
    (∀ a, 0x50 ≤ a → a ≤ 0x1FF → t.mem.read a = 0) ∧
    (∀ (k : Nat) (h : k < bytes.length), t.mem.read (0x200 + k) = bytes[k]) ∧
    (∀ a, 0x200 + bytes.length ≤ a → t.mem.read a = 0) ∧
    t.pc = 0x200 ∧ t.sp = 0 ∧ (∀ k, t.stack.get k = 0) ∧ (∀ r, t.getV r = 0) ∧ t.i = 0 ∧ t.dt = 0 ∧ t.st = 0 ∧
    (∀ px py, t.pixel px py = false) ∧ t.chg = false ∧ t.flt = none

/-- R38 with R182: once the font is loaded, `Fx29` on a digit points `I` at its glyph, and `F465` then reads its five
bytes, for every FONT (D17, log entry 3). -/
def Obligations.FontAddressPointsAtTheGlyph : Prop :=
  ∀ (x : Reg) (d : Fin 16) (s s' t u : State), s.mem.wf → loadFont s = .next s' →
    (s.getV x).toNat = d.val → exec (.ldFVx x) s' = .next t → exec (.ldVxMem 4) t = .next u →
    ∀ (r : Fin 5) (k : Reg), k.val = r.val → u.getV k = (s.params.font.get d).get r

/-! ### Invariants of every step -/

/-- R36: the state after construct() meets the invariant (the canonical form of memory is the model's, log entry 8). -/
def Obligations.ResetMeetsTheInvariant : Prop := State.reset.Inv

/-- R35, R241, R243: every step keeps the invariant: memory stays canonical (log entry 8), stack entries stay fetched
addresses (D5, log entry 12), a recorded fault stays consistent with its table and the halted core (D15, log entries 9,
15). -/
def Obligations.EveryStepKeepsTheInvariant : Prop :=
  ∀ s t : State, s.Inv → step s = .next t → t.Inv

/-- R77, C5: no run of instructions, of any length, on any inputs, changes a byte below 0x200 (D10, log entry 14). -/
def Obligations.NoRunChangesTheReservedArea : Prop :=
  ∀ (k : Nat) (s t : State), runsTo k s t → ∀ a, a < 0x200 → t.mem.read a = s.mem.read a
end

