-- ==== Sys2Proof/Laws/Decode.lean ====
section
/-! SUPPORT. The fields of a word laid out in each format, and the major opcode of a word that a mask selects. -/

namespace Sys2Proof

theorem fieldX_val (op : Word) : (fieldX op).val = op.toNat / 256 % 16 := by
  simp [fieldX, Nat.shiftRight_eq_div_pow]

theorem fieldY_val (op : Word) : (fieldY op).val = op.toNat / 16 % 16 := by
  simp [fieldY, Nat.shiftRight_eq_div_pow]

theorem fieldMajor_toNat (op : Word) : (fieldMajor op).toNat = op.toNat / 4096 := by
  have := op.isLt
  simp [fieldMajor, Nat.shiftRight_eq_div_pow]
  omega

theorem fieldN_toNat (op : Word) : (fieldN op).toNat = op.toNat % 16 := by
  simp [fieldN]

theorem fieldKk_toNat (op : Word) : (fieldKk op).toNat = op.toNat % 256 := by
  simp [fieldKk]

theorem fieldNnn_toNat (op : Word) : (fieldNnn op).toNat = op.toNat % 4096 := by
  simp [fieldNnn]

theorem formatNnn_toNat (m : Nibble) (nnn : Addr12) : (formatNnn m nnn).toNat = m.toNat * 4096 + nnn.toNat := by
  have := nnn.isLt
  rw [formatNnn, BitVec.toNat_append, Nat.shiftLeft_eq, ← Nat.shiftLeft_eq, Nat.shiftLeft_add_eq_or_of_lt (by omega)]

theorem formatXkk_toNat (m : Nibble) (x : Reg) (kk : Byte) :
    (formatXkk m x kk).toNat = m.toNat * 4096 + x.val * 256 + kk.toNat := by
  have h1 := kk.isLt
  have h2 := x.isLt
  have e : (m ++ regField x).toNat = m.toNat * 16 + x.val := by
    rw [BitVec.toNat_append, ← Nat.shiftLeft_add_eq_or_of_lt (by simp [regField]), Nat.shiftLeft_eq]
    simp [regField]
  rw [formatXkk, BitVec.toNat_append, ← Nat.shiftLeft_add_eq_or_of_lt (by omega), Nat.shiftLeft_eq, e]
  omega

theorem formatXyn_toNat (m : Nibble) (x y : Reg) (n : Nibble) :
    (formatXyn m x y n).toNat = m.toNat * 4096 + x.val * 256 + y.val * 16 + n.toNat := by
  have h1 := n.isLt
  have h2 := x.isLt
  have h3 := y.isLt
  have e : (m ++ regField x).toNat = m.toNat * 16 + x.val := by
    rw [BitVec.toNat_append, ← Nat.shiftLeft_add_eq_or_of_lt (by simp [regField]), Nat.shiftLeft_eq]
    simp [regField]
  have e' : (m ++ regField x ++ regField y).toNat = (m.toNat * 16 + x.val) * 16 + y.val := by
    rw [BitVec.toNat_append, ← Nat.shiftLeft_add_eq_or_of_lt (by simp [regField]), Nat.shiftLeft_eq, e]
    simp [regField]
  rw [formatXyn, BitVec.toNat_append, ← Nat.shiftLeft_add_eq_or_of_lt (by omega), Nat.shiftLeft_eq, e']
  omega

/-! ### The fields of each format -/

@[simp] theorem fieldMajor_formatNnn (m : Nibble) (nnn : Addr12) : fieldMajor (formatNnn m nnn) = m := by
  apply BitVec.eq_of_toNat_eq
  have := nnn.isLt
  rw [fieldMajor_toNat, formatNnn_toNat]; omega

@[simp] theorem fieldNnn_formatNnn (m : Nibble) (nnn : Addr12) : fieldNnn (formatNnn m nnn) = nnn := by
  apply BitVec.eq_of_toNat_eq
  have := nnn.isLt
  rw [fieldNnn_toNat, formatNnn_toNat]; omega

@[simp] theorem fieldMajor_formatXkk (m : Nibble) (x : Reg) (kk : Byte) : fieldMajor (formatXkk m x kk) = m := by
  apply BitVec.eq_of_toNat_eq
  have := kk.isLt
  have := x.isLt
  rw [fieldMajor_toNat, formatXkk_toNat]; omega

@[simp] theorem fieldX_formatXkk (m : Nibble) (x : Reg) (kk : Byte) : fieldX (formatXkk m x kk) = x := by
  apply Fin.eq_of_val_eq
  have := kk.isLt
  have := x.isLt
  rw [fieldX_val, formatXkk_toNat]; omega

@[simp] theorem fieldKk_formatXkk (m : Nibble) (x : Reg) (kk : Byte) : fieldKk (formatXkk m x kk) = kk := by
  apply BitVec.eq_of_toNat_eq
  have := kk.isLt
  rw [fieldKk_toNat, formatXkk_toNat]; omega

@[simp] theorem fieldMajor_formatXyn (m : Nibble) (x y : Reg) (n : Nibble) :
    fieldMajor (formatXyn m x y n) = m := by
  apply BitVec.eq_of_toNat_eq
  have := n.isLt
  have := x.isLt
  have := y.isLt
  rw [fieldMajor_toNat, formatXyn_toNat]; omega

@[simp] theorem fieldX_formatXyn (m : Nibble) (x y : Reg) (n : Nibble) : fieldX (formatXyn m x y n) = x := by
  apply Fin.eq_of_val_eq
  have := n.isLt
  have := x.isLt
  have := y.isLt
  rw [fieldX_val, formatXyn_toNat]; omega

@[simp] theorem fieldY_formatXyn (m : Nibble) (x y : Reg) (n : Nibble) : fieldY (formatXyn m x y n) = y := by
  apply Fin.eq_of_val_eq
  have := n.isLt
  have := x.isLt
  have := y.isLt
  rw [fieldY_val, formatXyn_toNat]; omega

@[simp] theorem fieldN_formatXyn (m : Nibble) (x y : Reg) (n : Nibble) : fieldN (formatXyn m x y n) = n := by
  apply BitVec.eq_of_toNat_eq
  have := n.isLt
  rw [fieldN_toNat, formatXyn_toNat]; omega

/-! ### A word from its fields -/

theorem formatNnn_fields (op : Word) : formatNnn (fieldMajor op) (fieldNnn op) = op := by
  apply BitVec.eq_of_toNat_eq
  rw [formatNnn_toNat, fieldMajor_toNat, fieldNnn_toNat]; omega

theorem formatXkk_fields (op : Word) : formatXkk (fieldMajor op) (fieldX op) (fieldKk op) = op := by
  apply BitVec.eq_of_toNat_eq
  rw [formatXkk_toNat, fieldMajor_toNat, fieldX_val, fieldKk_toNat]; omega

theorem formatXyn_fields (op : Word) : formatXyn (fieldMajor op) (fieldX op) (fieldY op) (fieldN op) = op := by
  apply BitVec.eq_of_toNat_eq
  rw [formatXyn_toNat, fieldMajor_toNat, fieldX_val, fieldY_val, fieldN_toNat]; omega

/-! ### What a mask selects -/

theorem fieldMajor_and (op m : Word) : fieldMajor (op &&& m) = fieldMajor op &&& fieldMajor m := by
  simp [fieldMajor, BitVec.extractLsb'_and]

theorem fieldN_and (op m : Word) : fieldN (op &&& m) = fieldN op &&& fieldN m := by
  simp [fieldN, BitVec.extractLsb'_and]

theorem fieldKk_and (op m : Word) : fieldKk (op &&& m) = fieldKk op &&& fieldKk m := by
  simp [fieldKk, BitVec.extractLsb'_and]

/-- Mask 0xF000 tests the major opcode. -/
theorem major_of_mask {op p m : Word} (hm : fieldMajor m = 0xF) (h : op &&& m = p) : fieldMajor op = fieldMajor p := by
  rw [← h, fieldMajor_and, hm]
  exact (BitVec.and_allOnes (x := fieldMajor op)).symm

/-- Mask 0xF00F tests the low nibble too. -/
theorem nibble_of_mask {op p m : Word} (hm : fieldN m = 0xF) (h : op &&& m = p) : fieldN op = fieldN p := by
  rw [← h, fieldN_and, hm]
  exact (BitVec.and_allOnes (x := fieldN op)).symm

/-- Mask 0xF0FF tests the low byte too. -/
theorem byte_of_mask {op p m : Word} (hm : fieldKk m = 0xFF) (h : op &&& m = p) : fieldKk op = fieldKk p := by
  rw [← h, fieldKk_and, hm]
  exact (BitVec.and_allOnes (x := fieldKk op)).symm

end Sys2Proof
end

