-- ==== Sys2Proof/Laws/Memory.lean ====
section
/-! SUPPORT. The laws of memory: a read after a write, and that every memory operation keeps the canonical form. -/

namespace Sys2Proof.Machine

@[simp] theorem Memory.read_nil (a : Nat) : Memory.read [] a = 0 := rfl

/-- An address below every listed one reads as unlisted. -/
theorem Memory.read_of_lt {m : Memory} {a : Nat} (h : ∀ c ∈ m, a < c.1) : m.read a = Memory.unlisted := by
  induction m with
  | nil => rfl
  | cons c rest ih =>
    have hc : a < c.1 := h c (by simp)
    have hne : c.1 ≠ a := by omega
    rw [show c = (c.1, c.2) from rfl, Memory.read, if_neg hne]
    exact ih fun d hd => h d (by simp [hd])

/-- A write leaves every other address alone, on any list of cells. -/
theorem Memory.read_write_ne (m : Memory) {a b : Nat} (v : Byte) (h : b ≠ a) :
    (m.write a v).read b = m.read b := by
  have h' : a ≠ b := fun e => h e.symm
  induction m with
  | nil =>
    simp only [Memory.write]
    split <;> simp [Memory.read, h']
  | cons c rest ih =>
    obtain ⟨k, w⟩ := c
    simp only [Memory.write]
    split
    · simp only [Memory.read, ih]
    · split
      · rename_i _ hka
        subst hka
        split <;> simp [Memory.read, h']
      · split <;> simp [Memory.read, h']

/-- A read after a write to the same address, on a memory whose addresses rise. -/
theorem Memory.read_write_self {m : Memory} (hm : m.Pairwise (fun c d => c.1 < d.1)) (a : Nat) (v : Byte) :
    (m.write a v).read a = v := by
  induction m with
  | nil =>
    by_cases hv : v = Memory.unlisted
    · simp only [Memory.write, hv, if_true, Memory.read]
    · simp only [Memory.write, hv, if_false, Memory.read, if_true]
  | cons c rest ih =>
    obtain ⟨k, w⟩ := c
    have hlt : ∀ d ∈ rest, k < d.1 := (List.pairwise_cons.1 hm).1
    simp only [Memory.write]
    split
    · rename_i hka
      have hne : k ≠ a := by omega
      simp only [Memory.read, hne, if_false]
      exact ih (List.pairwise_cons.1 hm).2
    · split
      · rename_i _ hka
        subst hka
        split
        · rename_i hv
          rw [hv]
          exact Memory.read_of_lt hlt
        · simp only [Memory.read, if_true]
      · split
        · rename_i h1 h2 hv
          rw [hv]
          refine Memory.read_of_lt fun d hd => ?_
          rcases List.mem_cons.1 hd with e | e
          · subst e; simp; omega
          · have := hlt d e; omega
        · simp only [Memory.read, if_true]

/-- Read after write, on a memory whose addresses rise. -/
theorem Memory.read_write {m : Memory} (hm : m.Pairwise (fun c d => c.1 < d.1)) (a b : Nat) (v : Byte) :
    (m.write a v).read b = if b = a then v else m.read b := by
  by_cases h : b = a
  · subst h; simp only [if_true, Memory.read_write_self hm]
  · simp only [h, if_false, Memory.read_write_ne m v h]

/-- What a written memory lists: the cell written, or what it listed before. -/
theorem Memory.mem_write {m : Memory} {a : Nat} {v : Byte} {c : Host.Cell} (h : c ∈ m.write a v) :
    (c = (a, v) ∧ v ≠ Memory.unlisted) ∨ c ∈ m := by
  induction m with
  | nil =>
    simp only [Memory.write] at h
    split at h <;> simp_all
  | cons d rest ih =>
    obtain ⟨k, w⟩ := d
    simp only [Memory.write] at h
    split at h
    · rcases List.mem_cons.1 h with e | e
      · exact .inr (by simp [e])
      · rcases ih e with e | e
        · exact .inl e
        · exact .inr (by simp [e])
    · split at h
      · split at h
        · exact .inr (by simp [h])
        · rcases List.mem_cons.1 h with e | e
          · exact .inl ⟨e, by assumption⟩
          · exact .inr (by simp [e])
      · split at h
        · exact .inr h
        · rcases List.mem_cons.1 h with e | e
          · exact .inl ⟨e, by assumption⟩
          · exact .inr e

theorem Memory.pairwise_write {m : Memory} (hm : m.Pairwise (fun c d => c.1 < d.1)) (a : Nat) (v : Byte) :
    (m.write a v).Pairwise (fun c d => c.1 < d.1) := by
  induction m with
  | nil => simp only [Memory.write]; split <;> simp
  | cons d rest ih =>
    obtain ⟨k, w⟩ := d
    have hrest := (List.pairwise_cons.1 hm).2
    have hlt : ∀ d ∈ rest, k < d.1 := (List.pairwise_cons.1 hm).1
    simp only [Memory.write]
    split
    · rename_i hka
      refine List.pairwise_cons.2 ⟨fun d hd => ?_, ih hrest⟩
      rcases Memory.mem_write hd with e | e
      · simp [e.1, hka]
      · exact hlt d e
    · split
      · rename_i _ hka
        subst hka
        split
        · exact hrest
        · exact List.pairwise_cons.2 ⟨hlt, hrest⟩
      · split
        · exact hm
        · refine List.pairwise_cons.2 ⟨fun d hd => ?_, hm⟩
          rcases List.mem_cons.1 hd with e | e
          · subst e; simp; omega
          · have := hlt d e; simp; omega

/-- A write inside the address space keeps the canonical form. -/
theorem Memory.wf_write {m : Memory} (hm : m.wf) {a : Nat} (ha : a < memSize) (v : Byte) : (m.write a v).wf := by
  refine ⟨Memory.pairwise_write hm.1 a v, fun c hc => ?_⟩
  rcases Memory.mem_write hc with e | e
  · rw [e.1]; exact ⟨ha, e.2⟩
  · exact hm.2 c e

theorem Memory.wf_nil : Memory.wf [] := by simp [Memory.wf]

theorem Memory.pairwise_writeBytes (bytes : List Byte) {m : Memory} (hm : m.Pairwise (fun c d => c.1 < d.1))
    (a : Nat) : (m.writeBytes a bytes).Pairwise (fun c d => c.1 < d.1) := by
  induction bytes generalizing m a with
  | nil => exact hm
  | cons b rest ih => exact ih (Memory.pairwise_write hm a b) (a + 1)

/-- Writing bytes inside the address space keeps the canonical form. -/
theorem Memory.wf_writeBytes (bytes : List Byte) {m : Memory} (hm : m.wf) {a : Nat}
    (ha : a + bytes.length ≤ memSize) : (m.writeBytes a bytes).wf := by
  induction bytes generalizing m a with
  | nil => exact hm
  | cons b rest ih =>
    simp only [List.length_cons] at ha
    exact ih (Memory.wf_write hm (by omega) b) (by omega)

/-- Reading after writing bytes: the byte written, or what was there. -/
theorem Memory.read_writeBytes (bytes : List Byte) {m : Memory} (hm : m.Pairwise (fun c d => c.1 < d.1))
    (a b : Nat) :
    (m.writeBytes a bytes).read b = if h : a ≤ b ∧ b - a < bytes.length then bytes[b - a]'h.2 else m.read b := by
  induction bytes generalizing m a with
  | nil => simp [Memory.writeBytes]
  | cons v rest ih =>
    rw [Memory.writeBytes, ih (Memory.pairwise_write hm a v) (a + 1), Memory.read_write hm]
    by_cases hb : b = a
    · subst hb; simp
    · by_cases h : a + 1 ≤ b ∧ b - (a + 1) < rest.length
      · have h' : a ≤ b ∧ b - a < (v :: rest).length := by simp; omega
        have e : b - a = (b - (a + 1)) + 1 := by omega
        rw [dif_pos h, dif_pos h']
        simp [e]
      · have h' : ¬ (a ≤ b ∧ b - a < (v :: rest).length) := by simp at *; omega
        rw [dif_neg h, dif_neg h', if_neg hb]

/-- Writing bytes leaves every other address alone, on any list of cells. -/
theorem Memory.read_writeBytes_outside (bytes : List Byte) (m : Memory) {a b : Nat}
    (h : b < a ∨ a + bytes.length ≤ b) : (m.writeBytes a bytes).read b = m.read b := by
  induction bytes generalizing m a with
  | nil => rfl
  | cons v rest ih =>
    simp only [List.length_cons] at h
    rw [Memory.writeBytes, ih (m.write a v) (a := a + 1) (by omega), Memory.read_write_ne m v (by omega)]

@[simp] theorem Memory.length_readBytes (m : Memory) (a n : Nat) : (m.readBytes a n).length = n := by
  induction n generalizing a with
  | zero => rfl
  | succ n ih => simp [Memory.readBytes, ih]

theorem Memory.getElem_readBytes (m : Memory) (a n k : Nat) (h : k < (m.readBytes a n).length) :
    (m.readBytes a n)[k] = m.read (a + k) := by
  induction n generalizing a k with
  | zero => simp [Memory.readBytes] at h
  | succ n ih =>
    cases k with
    | zero => rfl
    | succ k =>
      simp only [Memory.readBytes, List.getElem_cons_succ]
      rw [ih, show a + 1 + k = a + (k + 1) by omega]

end Sys2Proof.Machine
end

