-- ==== Sys2Proof/Laws/State.lean ====
section
/-! SUPPORT. One lemma for each field of State and each named update, true by rfl, so that no later proof unfolds a record
update; and what a register reads as after each update. -/

namespace Sys2Proof.Machine

/-! ### `State.setV` -/

@[simp] theorem State.setV_v (s : State) (r : Reg) (b : Byte) : (s.setV r b).v = s.v.set r b := rfl
@[simp] theorem State.setV_i (s : State) (r : Reg) (b : Byte) : (s.setV r b).i = s.i := rfl
@[simp] theorem State.setV_pc (s : State) (r : Reg) (b : Byte) : (s.setV r b).pc = s.pc := rfl
@[simp] theorem State.setV_stack (s : State) (r : Reg) (b : Byte) : (s.setV r b).stack = s.stack := rfl
@[simp] theorem State.setV_sp (s : State) (r : Reg) (b : Byte) : (s.setV r b).sp = s.sp := rfl
@[simp] theorem State.setV_dt (s : State) (r : Reg) (b : Byte) : (s.setV r b).dt = s.dt := rfl
@[simp] theorem State.setV_st (s : State) (r : Reg) (b : Byte) : (s.setV r b).st = s.st := rfl
@[simp] theorem State.setV_display (s : State) (r : Reg) (b : Byte) : (s.setV r b).display = s.display := rfl
@[simp] theorem State.setV_chg (s : State) (r : Reg) (b : Byte) : (s.setV r b).chg = s.chg := rfl
@[simp] theorem State.setV_mem (s : State) (r : Reg) (b : Byte) : (s.setV r b).mem = s.mem := rfl
@[simp] theorem State.setV_flt (s : State) (r : Reg) (b : Byte) : (s.setV r b).flt = s.flt := rfl
@[simp] theorem State.setV_params (s : State) (r : Reg) (b : Byte) : (s.setV r b).params = s.params := rfl
@[simp] theorem State.setV_started (s : State) (r : Reg) (b : Byte) : (s.setV r b).started = s.started := rfl
@[simp] theorem State.setV_input (s : State) (r : Reg) (b : Byte) : (s.setV r b).input = s.input := rfl
@[simp] theorem State.setV_pending (s : State) (r : Reg) (b : Byte) : (s.setV r b).pending = s.pending := rfl
@[simp] theorem State.setV_draws (s : State) (r : Reg) (b : Byte) : (s.setV r b).draws = s.draws := rfl

@[simp] theorem State.getV_setV (s : State) (r q : Reg) (b : Byte) :
    (s.setV r b).getV q = if q = r then b else s.getV q := by
  simp only [State.getV, State.setV, Vector.get_eq_getElem, Vector.getElem_set]
  by_cases h : q = r
  · simp [h]
  · have : r.val ≠ q.val := fun e => h (Fin.ext e.symm)
    simp [h, this]

/-! ### `State.setRegs` -/

@[simp] theorem State.setRegs_v (s : State) (v : Vector Byte 16) : (s.setRegs v).v = v := rfl
@[simp] theorem State.setRegs_i (s : State) (v : Vector Byte 16) : (s.setRegs v).i = s.i := rfl
@[simp] theorem State.setRegs_pc (s : State) (v : Vector Byte 16) : (s.setRegs v).pc = s.pc := rfl
@[simp] theorem State.setRegs_stack (s : State) (v : Vector Byte 16) : (s.setRegs v).stack = s.stack := rfl
@[simp] theorem State.setRegs_sp (s : State) (v : Vector Byte 16) : (s.setRegs v).sp = s.sp := rfl
@[simp] theorem State.setRegs_dt (s : State) (v : Vector Byte 16) : (s.setRegs v).dt = s.dt := rfl
@[simp] theorem State.setRegs_st (s : State) (v : Vector Byte 16) : (s.setRegs v).st = s.st := rfl
@[simp] theorem State.setRegs_display (s : State) (v : Vector Byte 16) : (s.setRegs v).display = s.display := rfl
@[simp] theorem State.setRegs_chg (s : State) (v : Vector Byte 16) : (s.setRegs v).chg = s.chg := rfl
@[simp] theorem State.setRegs_mem (s : State) (v : Vector Byte 16) : (s.setRegs v).mem = s.mem := rfl
@[simp] theorem State.setRegs_flt (s : State) (v : Vector Byte 16) : (s.setRegs v).flt = s.flt := rfl
@[simp] theorem State.setRegs_params (s : State) (v : Vector Byte 16) : (s.setRegs v).params = s.params := rfl
@[simp] theorem State.setRegs_started (s : State) (v : Vector Byte 16) : (s.setRegs v).started = s.started := rfl
@[simp] theorem State.setRegs_input (s : State) (v : Vector Byte 16) : (s.setRegs v).input = s.input := rfl
@[simp] theorem State.setRegs_pending (s : State) (v : Vector Byte 16) : (s.setRegs v).pending = s.pending := rfl
@[simp] theorem State.setRegs_draws (s : State) (v : Vector Byte 16) : (s.setRegs v).draws = s.draws := rfl
@[simp] theorem State.getV_setRegs (s : State) (v : Vector Byte 16) (q : Reg) : (s.setRegs v).getV q = v.get q := rfl

/-! ### `State.setI` -/

@[simp] theorem State.setI_v (s : State) (w : Word) : (s.setI w).v = s.v := rfl
@[simp] theorem State.setI_i (s : State) (w : Word) : (s.setI w).i = w := rfl
@[simp] theorem State.setI_pc (s : State) (w : Word) : (s.setI w).pc = s.pc := rfl
@[simp] theorem State.setI_stack (s : State) (w : Word) : (s.setI w).stack = s.stack := rfl
@[simp] theorem State.setI_sp (s : State) (w : Word) : (s.setI w).sp = s.sp := rfl
@[simp] theorem State.setI_dt (s : State) (w : Word) : (s.setI w).dt = s.dt := rfl
@[simp] theorem State.setI_st (s : State) (w : Word) : (s.setI w).st = s.st := rfl
@[simp] theorem State.setI_display (s : State) (w : Word) : (s.setI w).display = s.display := rfl
@[simp] theorem State.setI_chg (s : State) (w : Word) : (s.setI w).chg = s.chg := rfl
@[simp] theorem State.setI_mem (s : State) (w : Word) : (s.setI w).mem = s.mem := rfl
@[simp] theorem State.setI_flt (s : State) (w : Word) : (s.setI w).flt = s.flt := rfl
@[simp] theorem State.setI_params (s : State) (w : Word) : (s.setI w).params = s.params := rfl
@[simp] theorem State.setI_started (s : State) (w : Word) : (s.setI w).started = s.started := rfl
@[simp] theorem State.setI_input (s : State) (w : Word) : (s.setI w).input = s.input := rfl
@[simp] theorem State.setI_pending (s : State) (w : Word) : (s.setI w).pending = s.pending := rfl
@[simp] theorem State.setI_draws (s : State) (w : Word) : (s.setI w).draws = s.draws := rfl
@[simp] theorem State.getV_setI (s : State) (w : Word) (q : Reg) : (s.setI w).getV q = s.getV q := rfl

/-! ### `State.setDt` -/

@[simp] theorem State.setDt_v (s : State) (b : Byte) : (s.setDt b).v = s.v := rfl
@[simp] theorem State.setDt_i (s : State) (b : Byte) : (s.setDt b).i = s.i := rfl
@[simp] theorem State.setDt_pc (s : State) (b : Byte) : (s.setDt b).pc = s.pc := rfl
@[simp] theorem State.setDt_stack (s : State) (b : Byte) : (s.setDt b).stack = s.stack := rfl
@[simp] theorem State.setDt_sp (s : State) (b : Byte) : (s.setDt b).sp = s.sp := rfl
@[simp] theorem State.setDt_dt (s : State) (b : Byte) : (s.setDt b).dt = b := rfl
@[simp] theorem State.setDt_st (s : State) (b : Byte) : (s.setDt b).st = s.st := rfl
@[simp] theorem State.setDt_display (s : State) (b : Byte) : (s.setDt b).display = s.display := rfl
@[simp] theorem State.setDt_chg (s : State) (b : Byte) : (s.setDt b).chg = s.chg := rfl
@[simp] theorem State.setDt_mem (s : State) (b : Byte) : (s.setDt b).mem = s.mem := rfl
@[simp] theorem State.setDt_flt (s : State) (b : Byte) : (s.setDt b).flt = s.flt := rfl
@[simp] theorem State.setDt_params (s : State) (b : Byte) : (s.setDt b).params = s.params := rfl
@[simp] theorem State.setDt_started (s : State) (b : Byte) : (s.setDt b).started = s.started := rfl
@[simp] theorem State.setDt_input (s : State) (b : Byte) : (s.setDt b).input = s.input := rfl
@[simp] theorem State.setDt_pending (s : State) (b : Byte) : (s.setDt b).pending = s.pending := rfl
@[simp] theorem State.setDt_draws (s : State) (b : Byte) : (s.setDt b).draws = s.draws := rfl
@[simp] theorem State.getV_setDt (s : State) (b : Byte) (q : Reg) : (s.setDt b).getV q = s.getV q := rfl

/-! ### `State.setSt` -/

@[simp] theorem State.setSt_v (s : State) (b : Byte) : (s.setSt b).v = s.v := rfl
@[simp] theorem State.setSt_i (s : State) (b : Byte) : (s.setSt b).i = s.i := rfl
@[simp] theorem State.setSt_pc (s : State) (b : Byte) : (s.setSt b).pc = s.pc := rfl
@[simp] theorem State.setSt_stack (s : State) (b : Byte) : (s.setSt b).stack = s.stack := rfl
@[simp] theorem State.setSt_sp (s : State) (b : Byte) : (s.setSt b).sp = s.sp := rfl
@[simp] theorem State.setSt_dt (s : State) (b : Byte) : (s.setSt b).dt = s.dt := rfl
@[simp] theorem State.setSt_st (s : State) (b : Byte) : (s.setSt b).st = b := rfl
@[simp] theorem State.setSt_display (s : State) (b : Byte) : (s.setSt b).display = s.display := rfl
@[simp] theorem State.setSt_chg (s : State) (b : Byte) : (s.setSt b).chg = s.chg := rfl
@[simp] theorem State.setSt_mem (s : State) (b : Byte) : (s.setSt b).mem = s.mem := rfl
@[simp] theorem State.setSt_flt (s : State) (b : Byte) : (s.setSt b).flt = s.flt := rfl
@[simp] theorem State.setSt_params (s : State) (b : Byte) : (s.setSt b).params = s.params := rfl
@[simp] theorem State.setSt_started (s : State) (b : Byte) : (s.setSt b).started = s.started := rfl
@[simp] theorem State.setSt_input (s : State) (b : Byte) : (s.setSt b).input = s.input := rfl
@[simp] theorem State.setSt_pending (s : State) (b : Byte) : (s.setSt b).pending = s.pending := rfl
@[simp] theorem State.setSt_draws (s : State) (b : Byte) : (s.setSt b).draws = s.draws := rfl
@[simp] theorem State.getV_setSt (s : State) (b : Byte) (q : Reg) : (s.setSt b).getV q = s.getV q := rfl

/-! ### `State.setMem` -/

@[simp] theorem State.setMem_v (s : State) (m : Memory) : (s.setMem m).v = s.v := rfl
@[simp] theorem State.setMem_i (s : State) (m : Memory) : (s.setMem m).i = s.i := rfl
@[simp] theorem State.setMem_pc (s : State) (m : Memory) : (s.setMem m).pc = s.pc := rfl
@[simp] theorem State.setMem_stack (s : State) (m : Memory) : (s.setMem m).stack = s.stack := rfl
@[simp] theorem State.setMem_sp (s : State) (m : Memory) : (s.setMem m).sp = s.sp := rfl
@[simp] theorem State.setMem_dt (s : State) (m : Memory) : (s.setMem m).dt = s.dt := rfl
@[simp] theorem State.setMem_st (s : State) (m : Memory) : (s.setMem m).st = s.st := rfl
@[simp] theorem State.setMem_display (s : State) (m : Memory) : (s.setMem m).display = s.display := rfl
@[simp] theorem State.setMem_chg (s : State) (m : Memory) : (s.setMem m).chg = s.chg := rfl
@[simp] theorem State.setMem_mem (s : State) (m : Memory) : (s.setMem m).mem = m := rfl
@[simp] theorem State.setMem_flt (s : State) (m : Memory) : (s.setMem m).flt = s.flt := rfl
@[simp] theorem State.setMem_params (s : State) (m : Memory) : (s.setMem m).params = s.params := rfl
@[simp] theorem State.setMem_started (s : State) (m : Memory) : (s.setMem m).started = s.started := rfl
@[simp] theorem State.setMem_input (s : State) (m : Memory) : (s.setMem m).input = s.input := rfl
@[simp] theorem State.setMem_pending (s : State) (m : Memory) : (s.setMem m).pending = s.pending := rfl
@[simp] theorem State.setMem_draws (s : State) (m : Memory) : (s.setMem m).draws = s.draws := rfl
@[simp] theorem State.getV_setMem (s : State) (m : Memory) (q : Reg) : (s.setMem m).getV q = s.getV q := rfl

/-! ### `State.setDisplay` -/

@[simp] theorem State.setDisplay_v (s : State) (d : Display) : (s.setDisplay d).v = s.v := rfl
@[simp] theorem State.setDisplay_i (s : State) (d : Display) : (s.setDisplay d).i = s.i := rfl
@[simp] theorem State.setDisplay_pc (s : State) (d : Display) : (s.setDisplay d).pc = s.pc := rfl
@[simp] theorem State.setDisplay_stack (s : State) (d : Display) : (s.setDisplay d).stack = s.stack := rfl
@[simp] theorem State.setDisplay_sp (s : State) (d : Display) : (s.setDisplay d).sp = s.sp := rfl
@[simp] theorem State.setDisplay_dt (s : State) (d : Display) : (s.setDisplay d).dt = s.dt := rfl
@[simp] theorem State.setDisplay_st (s : State) (d : Display) : (s.setDisplay d).st = s.st := rfl
@[simp] theorem State.setDisplay_display (s : State) (d : Display) : (s.setDisplay d).display = d := rfl
@[simp] theorem State.setDisplay_chg (s : State) (d : Display) : (s.setDisplay d).chg = true := rfl
@[simp] theorem State.setDisplay_mem (s : State) (d : Display) : (s.setDisplay d).mem = s.mem := rfl
@[simp] theorem State.setDisplay_flt (s : State) (d : Display) : (s.setDisplay d).flt = s.flt := rfl
@[simp] theorem State.setDisplay_params (s : State) (d : Display) : (s.setDisplay d).params = s.params := rfl
@[simp] theorem State.setDisplay_started (s : State) (d : Display) : (s.setDisplay d).started = s.started := rfl
@[simp] theorem State.setDisplay_input (s : State) (d : Display) : (s.setDisplay d).input = s.input := rfl
@[simp] theorem State.setDisplay_pending (s : State) (d : Display) : (s.setDisplay d).pending = s.pending := rfl
@[simp] theorem State.setDisplay_draws (s : State) (d : Display) : (s.setDisplay d).draws = s.draws := rfl
@[simp] theorem State.getV_setDisplay (s : State) (d : Display) (q : Reg) : (s.setDisplay d).getV q = s.getV q := rfl

/-! ### `State.pop` -/

@[simp] theorem State.pop_v (s : State) : (s.pop).v = s.v := rfl
@[simp] theorem State.pop_i (s : State) : (s.pop).i = s.i := rfl
@[simp] theorem State.pop_pc (s : State) : (s.pop).pc = s.pc := rfl
@[simp] theorem State.pop_stack (s : State) : (s.pop).stack = s.stack := rfl
@[simp] theorem State.pop_sp (s : State) : (s.pop).sp = ⟨s.sp.val - 1, by have := s.sp.isLt; omega⟩ := rfl
@[simp] theorem State.pop_dt (s : State) : (s.pop).dt = s.dt := rfl
@[simp] theorem State.pop_st (s : State) : (s.pop).st = s.st := rfl
@[simp] theorem State.pop_display (s : State) : (s.pop).display = s.display := rfl
@[simp] theorem State.pop_chg (s : State) : (s.pop).chg = s.chg := rfl
@[simp] theorem State.pop_mem (s : State) : (s.pop).mem = s.mem := rfl
@[simp] theorem State.pop_flt (s : State) : (s.pop).flt = s.flt := rfl
@[simp] theorem State.pop_params (s : State) : (s.pop).params = s.params := rfl
@[simp] theorem State.pop_started (s : State) : (s.pop).started = s.started := rfl
@[simp] theorem State.pop_input (s : State) : (s.pop).input = s.input := rfl
@[simp] theorem State.pop_pending (s : State) : (s.pop).pending = s.pending := rfl
@[simp] theorem State.pop_draws (s : State) : (s.pop).draws = s.draws := rfl
@[simp] theorem State.getV_pop (s : State) (q : Reg) : (s.pop).getV q = s.getV q := rfl

/-! ### `State.push` -/

@[simp] theorem State.push_v (s : State) (w : Word) (room : s.sp.val < 16) : (s.push w room).v = s.v := rfl
@[simp] theorem State.push_i (s : State) (w : Word) (room : s.sp.val < 16) : (s.push w room).i = s.i := rfl
@[simp] theorem State.push_pc (s : State) (w : Word) (room : s.sp.val < 16) : (s.push w room).pc = s.pc := rfl
@[simp] theorem State.push_stack (s : State) (w : Word) (room : s.sp.val < 16) : (s.push w room).stack = s.stack.set s.sp.val w room := rfl
@[simp] theorem State.push_sp (s : State) (w : Word) (room : s.sp.val < 16) : (s.push w room).sp = ⟨s.sp.val + 1, by omega⟩ := rfl
@[simp] theorem State.push_dt (s : State) (w : Word) (room : s.sp.val < 16) : (s.push w room).dt = s.dt := rfl
@[simp] theorem State.push_st (s : State) (w : Word) (room : s.sp.val < 16) : (s.push w room).st = s.st := rfl
@[simp] theorem State.push_display (s : State) (w : Word) (room : s.sp.val < 16) : (s.push w room).display = s.display := rfl
@[simp] theorem State.push_chg (s : State) (w : Word) (room : s.sp.val < 16) : (s.push w room).chg = s.chg := rfl
@[simp] theorem State.push_mem (s : State) (w : Word) (room : s.sp.val < 16) : (s.push w room).mem = s.mem := rfl
@[simp] theorem State.push_flt (s : State) (w : Word) (room : s.sp.val < 16) : (s.push w room).flt = s.flt := rfl
@[simp] theorem State.push_params (s : State) (w : Word) (room : s.sp.val < 16) : (s.push w room).params = s.params := rfl
@[simp] theorem State.push_started (s : State) (w : Word) (room : s.sp.val < 16) : (s.push w room).started = s.started := rfl
@[simp] theorem State.push_input (s : State) (w : Word) (room : s.sp.val < 16) : (s.push w room).input = s.input := rfl
@[simp] theorem State.push_pending (s : State) (w : Word) (room : s.sp.val < 16) : (s.push w room).pending = s.pending := rfl
@[simp] theorem State.push_draws (s : State) (w : Word) (room : s.sp.val < 16) : (s.push w room).draws = s.draws := rfl
@[simp] theorem State.getV_push (s : State) (w : Word) (room : s.sp.val < 16) (q : Reg) : (s.push w room).getV q = s.getV q := rfl

/-! ### `State.go` -/

@[simp] theorem State.go_v (s : State) (f : Flow) : (s.go f).v = s.v := rfl
@[simp] theorem State.go_i (s : State) (f : Flow) : (s.go f).i = s.i := rfl
@[simp] theorem State.go_pc (s : State) (f : Flow) : (s.go f).pc = f.target s.pc := rfl
@[simp] theorem State.go_stack (s : State) (f : Flow) : (s.go f).stack = s.stack := rfl
@[simp] theorem State.go_sp (s : State) (f : Flow) : (s.go f).sp = s.sp := rfl
@[simp] theorem State.go_dt (s : State) (f : Flow) : (s.go f).dt = s.dt := rfl
@[simp] theorem State.go_st (s : State) (f : Flow) : (s.go f).st = s.st := rfl
@[simp] theorem State.go_display (s : State) (f : Flow) : (s.go f).display = s.display := rfl
@[simp] theorem State.go_chg (s : State) (f : Flow) : (s.go f).chg = s.chg := rfl
@[simp] theorem State.go_mem (s : State) (f : Flow) : (s.go f).mem = s.mem := rfl
@[simp] theorem State.go_flt (s : State) (f : Flow) : (s.go f).flt = s.flt := rfl
@[simp] theorem State.go_params (s : State) (f : Flow) : (s.go f).params = s.params := rfl
@[simp] theorem State.go_started (s : State) (f : Flow) : (s.go f).started = s.started := rfl
@[simp] theorem State.go_input (s : State) (f : Flow) : (s.go f).input = s.input := rfl
@[simp] theorem State.go_pending (s : State) (f : Flow) : (s.go f).pending = s.pending := rfl
@[simp] theorem State.go_draws (s : State) (f : Flow) : (s.go f).draws = s.draws := rfl
@[simp] theorem State.getV_go (s : State) (f : Flow) (q : Reg) : (s.go f).getV q = s.getV q := rfl

/-! ### `State.record` -/

@[simp] theorem State.record_v (s : State) (code : FaultCode) (op : Word) (addr : Nat) (value : Byte) : (s.record code op addr value).v = s.v := rfl
@[simp] theorem State.record_i (s : State) (code : FaultCode) (op : Word) (addr : Nat) (value : Byte) : (s.record code op addr value).i = s.i := rfl
@[simp] theorem State.record_pc (s : State) (code : FaultCode) (op : Word) (addr : Nat) (value : Byte) : (s.record code op addr value).pc = s.pc := rfl
@[simp] theorem State.record_stack (s : State) (code : FaultCode) (op : Word) (addr : Nat) (value : Byte) : (s.record code op addr value).stack = s.stack := rfl
@[simp] theorem State.record_sp (s : State) (code : FaultCode) (op : Word) (addr : Nat) (value : Byte) : (s.record code op addr value).sp = s.sp := rfl
@[simp] theorem State.record_dt (s : State) (code : FaultCode) (op : Word) (addr : Nat) (value : Byte) : (s.record code op addr value).dt = s.dt := rfl
@[simp] theorem State.record_st (s : State) (code : FaultCode) (op : Word) (addr : Nat) (value : Byte) : (s.record code op addr value).st = s.st := rfl
@[simp] theorem State.record_display (s : State) (code : FaultCode) (op : Word) (addr : Nat) (value : Byte) : (s.record code op addr value).display = s.display := rfl
@[simp] theorem State.record_chg (s : State) (code : FaultCode) (op : Word) (addr : Nat) (value : Byte) : (s.record code op addr value).chg = s.chg := rfl
@[simp] theorem State.record_mem (s : State) (code : FaultCode) (op : Word) (addr : Nat) (value : Byte) : (s.record code op addr value).mem = s.mem := rfl
@[simp] theorem State.record_flt (s : State) (code : FaultCode) (op : Word) (addr : Nat) (value : Byte) : (s.record code op addr value).flt = some { code := code, pc := s.pc, op := op, addr := addr, value := value } := rfl
@[simp] theorem State.record_params (s : State) (code : FaultCode) (op : Word) (addr : Nat) (value : Byte) : (s.record code op addr value).params = s.params := rfl
@[simp] theorem State.record_started (s : State) (code : FaultCode) (op : Word) (addr : Nat) (value : Byte) : (s.record code op addr value).started = s.started := rfl
@[simp] theorem State.record_input (s : State) (code : FaultCode) (op : Word) (addr : Nat) (value : Byte) : (s.record code op addr value).input = s.input := rfl
@[simp] theorem State.record_pending (s : State) (code : FaultCode) (op : Word) (addr : Nat) (value : Byte) : (s.record code op addr value).pending = s.pending := rfl
@[simp] theorem State.record_draws (s : State) (code : FaultCode) (op : Word) (addr : Nat) (value : Byte) : (s.record code op addr value).draws = s.draws := rfl
@[simp] theorem State.getV_record (s : State) (code : FaultCode) (op : Word) (addr : Nat) (value : Byte) (q : Reg) : (s.record code op addr value).getV q = s.getV q := rfl

/-! ### `beginTick` -/

@[simp] theorem beginTick_v (inp : TickInput) (s : State) : (beginTick inp s).v = s.v := rfl
@[simp] theorem beginTick_i (inp : TickInput) (s : State) : (beginTick inp s).i = s.i := rfl
@[simp] theorem beginTick_pc (inp : TickInput) (s : State) : (beginTick inp s).pc = s.pc := rfl
@[simp] theorem beginTick_stack (inp : TickInput) (s : State) : (beginTick inp s).stack = s.stack := rfl
@[simp] theorem beginTick_sp (inp : TickInput) (s : State) : (beginTick inp s).sp = s.sp := rfl
@[simp] theorem beginTick_dt (inp : TickInput) (s : State) : (beginTick inp s).dt = s.dt := rfl
@[simp] theorem beginTick_st (inp : TickInput) (s : State) : (beginTick inp s).st = s.st := rfl
@[simp] theorem beginTick_display (inp : TickInput) (s : State) : (beginTick inp s).display = s.display := rfl
@[simp] theorem beginTick_chg (inp : TickInput) (s : State) : (beginTick inp s).chg = false := rfl
@[simp] theorem beginTick_mem (inp : TickInput) (s : State) : (beginTick inp s).mem = s.mem := rfl
@[simp] theorem beginTick_flt (inp : TickInput) (s : State) : (beginTick inp s).flt = s.flt := rfl
@[simp] theorem beginTick_params (inp : TickInput) (s : State) : (beginTick inp s).params = s.params := rfl
@[simp] theorem beginTick_started (inp : TickInput) (s : State) : (beginTick inp s).started = true := rfl
@[simp] theorem beginTick_input (inp : TickInput) (s : State) : (beginTick inp s).input = inp := rfl
@[simp] theorem beginTick_pending (inp : TickInput) (s : State) : (beginTick inp s).pending = s.pending := rfl
@[simp] theorem beginTick_draws (inp : TickInput) (s : State) : (beginTick inp s).draws = s.draws := rfl
@[simp] theorem getV_beginTick (inp : TickInput) (s : State) (q : Reg) : (beginTick inp s).getV q = s.getV q := rfl

end Sys2Proof.Machine
end

