-- ==== Sys2Proof/Laws/Ops.lean ====
section
/-! SUPPORT. One lemma for each shared operation that says once everything it can do, and the inversion of `exec`: an
instruction either ends without a fault, leaving FLT alone, or takes one fault with nothing else written. -/

namespace Sys2Proof.Machine

@[simp] theorem Flow.target_next (pc : Word) : Flow.next.target pc = pc + 2 := rfl
@[simp] theorem Flow.target_skip (pc : Word) : Flow.skip.target pc = pc + 4 := rfl
@[simp] theorem Flow.target_jump (t pc : Word) : (Flow.jump t).target pc = t := rfl
@[simp] theorem Flow.target_wait (pc : Word) : Flow.wait.target pc = pc := rfl

theorem finish_eq (f : Flow) (s : State) : finish f s = .next (s.go f) := rfl

theorem raise_eq (code : FaultCode) (op : Word) (addr : Nat) (value : Byte) (s : State) :
    raise code op addr value s = .next (s.record code op addr value) := rfl

/-- The range check answers an address exactly when the access leaves memory, and then `max(a, 0x1000)`. -/
theorem rangeFault_cases (a len : Nat) :
    (rangeFault a len = none ∧ (len = 0 ∨ a + len ≤ memSize)) ∨
      (rangeFault a len = some (max a 0x1000) ∧ 0 < len ∧ memSize < a + len) := by
  unfold rangeFault memSize
  split
  · right; exact ⟨rfl, by omega, by omega⟩
  · left; exact ⟨rfl, by omega⟩

/-- The reserved-area check answers the address exactly when it is below 0x200. -/
theorem reservedFault_cases (a : Nat) :
    (reservedFault a = none ∧ programBase ≤ a) ∨ (reservedFault a = some a ∧ a < programBase) := by
  unfold reservedFault
  split
  · right; exact ⟨rfl, by omega⟩
  · left; exact ⟨rfl, by omega⟩

/-- A store at `I` writes all its bytes inside 0x200-0xFFF, or takes one of its two faults. -/
theorem storeAtI_cases (op : Word) (bytes : List Byte) (index : Word) (s : State) :
    (storeAtI op bytes index s = finish .next ((s.setMem (s.mem.writeBytes (baseAddress s) bytes)).setI index) ∧
      programBase ≤ baseAddress s ∧ (bytes = [] ∨ baseAddress s + bytes.length ≤ memSize)) ∨
    (storeAtI op bytes index s = raise .memOutOfRange op (max (baseAddress s) 0x1000) 0 s ∧
      memSize < baseAddress s + bytes.length) ∨
    (storeAtI op bytes index s = raise .reservedWrite op (baseAddress s) 0 s ∧ baseAddress s < programBase ∧
      (bytes = [] ∨ baseAddress s + bytes.length ≤ memSize)) := by
  unfold storeAtI
  rcases rangeFault_cases (baseAddress s) bytes.length with ⟨h, hr⟩ | ⟨h, _, hr⟩
  · rw [List.length_eq_zero_iff] at hr
    rcases reservedFault_cases (baseAddress s) with ⟨h', hp⟩ | ⟨h', hp⟩
    · left; simp [h, h', hp, hr]
    · right; right; simp [h, h', hp, hr]
  · right; left; simp [h, hr]

/-- A skip ends in SKIP or NEXT and writes nothing. -/
theorem skipIf_eq (c : Bool) (s : State) :
    skipIf c s = .next (s.go (if c = true then .skip else .next)) := rfl

/-- A key operand is its register's value, or none above 0x0F. -/
theorem keyOf_cases (b : Byte) :
    (∃ k : Key, keyOf b = some k ∧ k.val = b.toNat) ∨ (keyOf b = none ∧ 0x0F < b.toNat) := by
  unfold keyOf
  split
  · left; exact ⟨_, rfl, rfl⟩
  · right; exact ⟨rfl, by omega⟩

/-- A key skip tests one key, or takes its fault. -/
theorem skipOnKey_cases (op : Word) (x : Reg) (want : Bool) (s : State) :
    (∃ k : Key, k.val = (s.getV x).toNat ∧ skipOnKey op x want s = skipIf (s.input.down k == want) s) ∨
    (skipOnKey op x want s = raise .keyOutOfRange op 0 (s.getV x) s ∧ 0x0F < (s.getV x).toNat) := by
  unfold skipOnKey
  rcases keyOf_cases (s.getV x) with ⟨k, h, hk⟩ | ⟨h, hv⟩
  · left; exact ⟨k, hk, by rw [h]⟩
  · right; exact ⟨by rw [h], hv⟩

/-- With no key down no key is drawn. -/
theorem drawnKey_none {inp : TickInput} (h : ∀ k, inp.down k = false) : inp.drawnKey = none := by
  have e : inp.pressed = [] := by simp [TickInput.pressed, List.filter_eq_nil_iff, h]
  simp [TickInput.drawnKey, e]

/-- With a key down a key that is down is drawn. -/
theorem drawnKey_some {inp : TickInput} (h : ∃ k, inp.down k = true) :
    ∃ k, inp.drawnKey = some k ∧ inp.down k = true := by
  obtain ⟨k, hk⟩ := h
  have hm : k ∈ inp.pressed := by simp [TickInput.pressed, hk]
  have hl : inp.pick % inp.pressed.length < inp.pressed.length := Nat.mod_lt _ (List.length_pos_of_mem hm)
  refine ⟨inp.pressed[inp.pick % inp.pressed.length], by rw [TickInput.drawnKey, List.getElem?_eq_getElem hl], ?_⟩
  exact (List.mem_filter.1 (show _ ∈ (List.finRange 16).filter inp.down from List.getElem_mem hl)).2

/-- What the registers hold after loading `n` of them from memory. -/
theorem loadRegisters_get (m : Memory) (a : Nat) (v : Vector Byte 16) (n : Nat) (q : Reg) :
    (loadRegisters m a v n).get q = if q.val < n then m.read (a + q.val) else v.get q := by
  induction n with
  | zero => simp [loadRegisters]
  | succ n ih =>
    rw [loadRegisters, Vector.get_eq_getElem, Vector.getElem_setIfInBounds, ← Vector.get_eq_getElem, ih]
    by_cases h : n = q.val
    · simp [h]
    · have : (q.val < n + 1) ↔ (q.val < n) := by omega
      simp [h, this]

/-- The bytes `Fx55` stores are the registers, in order. -/
theorem length_registersUpTo (x : Reg) (s : State) : (registersUpTo x s).length = x.val + 1 := by
  have := x.isLt
  simp [registersUpTo]

theorem getElem_registersUpTo (x : Reg) (s : State) (k : Reg) (h : k.val < (registersUpTo x s).length) :
    (registersUpTo x s)[k.val] = s.getV k := by
  simp [registersUpTo, State.getV, Vector.get_eq_getElem]

/-- An instruction ends without a fault, leaving FLT as it was, or takes one fault that records its own word, with
nothing else written. -/
theorem exec_cases (i : Instr) (s : State) :
    (∃ t, exec i s = .next t ∧ t.flt = s.flt) ∨
      ∃ code addr value, exec i s = raise code (encode i) addr value s := by
  cases i with
  | ret =>
    simp only [exec, execRet]
    split
    · exact .inr ⟨_, _, _, rfl⟩
    · exact .inl ⟨_, rfl, rfl⟩
  | call nnn =>
    simp only [exec, execCall]
    split
    · exact .inl ⟨_, rfl, rfl⟩
    · exact .inr ⟨_, _, _, rfl⟩
  | drw x y n =>
    simp only [exec, execDrw]
    split
    · exact .inr ⟨_, _, _, rfl⟩
    · exact .inl ⟨_, rfl, rfl⟩
  | skp x =>
    rcases skipOnKey_cases (encode (.skp x)) x true s with ⟨k, _, h⟩ | ⟨h, _⟩
    · exact .inl ⟨_, h, rfl⟩
    · exact .inr ⟨_, _, _, h⟩
  | sknp x =>
    rcases skipOnKey_cases (encode (.sknp x)) x false s with ⟨k, _, h⟩ | ⟨h, _⟩
    · exact .inl ⟨_, h, rfl⟩
    · exact .inr ⟨_, _, _, h⟩
  | ldVxK x =>
    refine .inl ⟨_, rfl, ?_⟩
    split <;> rfl
  | ldBVx x =>
    rcases storeAtI_cases (encode (.ldBVx x)) (decimalDigits (s.getV x)) s.i s with ⟨h, _⟩ | ⟨h, _⟩ | ⟨h, _⟩
    · exact .inl ⟨_, h, rfl⟩
    · exact .inr ⟨_, _, _, h⟩
    · exact .inr ⟨_, _, _, h⟩
  | ldMemVx x =>
    rcases storeAtI_cases (encode (.ldMemVx x)) (registersUpTo x s) (indexAfter s.i x) s with
      ⟨h, _⟩ | ⟨h, _⟩ | ⟨h, _⟩
    · exact .inl ⟨_, h, rfl⟩
    · exact .inr ⟨_, _, _, h⟩
    · exact .inr ⟨_, _, _, h⟩
  | ldVxMem x =>
    simp only [exec, execLdVxMem]
    split
    · exact .inr ⟨_, _, _, rfl⟩
    · exact .inl ⟨_, rfl, rfl⟩
  | _ => exact .inl ⟨_, rfl, rfl⟩

/-- A running core's tick takes a fetch or decode fault, or executes the decoded instruction. -/
theorem tick_cases (inp : TickInput) (s : State) (h : s.flt = none) :
    (tick inp s = raise .fetchOutOfRange 0 0 0 (beginTick inp s) ∧ 0xFFE < s.pc.toNat) ∨
    (s.pc.toNat ≤ 0xFFE ∧
      ((∃ e, decode (fetchWord s) = .error e ∧
          tick inp s = raise .decodeError (fetchWord s) 0 0 (beginTick inp s)) ∨
        ∃ i, decode (fetchWord s) = .ok i ∧ tick inp s = exec i (beginTick inp s))) := by
  unfold tick
  have hh : s.halted = false := by simp [State.halted, h]
  simp only [hh, Bool.false_eq_true, if_false, fetchable, decide_eq_true_eq]
  split
  · rename_i hp
    refine .inr ⟨hp, ?_⟩
    unfold executeWord
    cases hd : decode (fetchWord s) with
    | error e => exact .inl ⟨e, rfl, rfl⟩
    | ok i => exact .inr ⟨i, rfl, rfl⟩
  · exact .inl ⟨rfl, by omega⟩

/-- A halted core's tick does nothing. -/
theorem tick_halted (inp : TickInput) (s : State) (h : s.flt ≠ none) : tick inp s = .next s := by
  have hh : s.halted = true := by cases e : s.flt <;> simp_all [State.halted]
  simp [tick, hh]

/-- A step is a tick after the host's decrements, or nothing on a halted core. -/
theorem step_cases (s : State) :
    (s.flt ≠ none ∧ step s = .next s) ∨
      (s.flt = none ∧ step s = tick (nextHostTick s).input (beforeTick s)) := by
  unfold step
  cases e : s.flt <;> simp [State.halted, e]

/-- Decrements change the two timers only. -/
theorem decreaseTimersBy_eq (n : Nat) (s : State) :
    ∃ dt st, decreaseTimersBy n s = (s.setDt dt).setSt st := by
  induction n generalizing s with
  | zero => exact ⟨s.dt, s.st, rfl⟩
  | succ n ih =>
    obtain ⟨dt, st, h⟩ := ih (decreaseTimers s)
    rw [decreaseTimersBy, h]
    unfold decreaseTimers
    split
    · exact ⟨dt, st, rfl⟩
    · exact ⟨dt, st, rfl⟩

/-- The host's side of a step changes the timers and its own schedule only. -/
theorem beforeTick_eq (s : State) :
    ∃ dt st pending draws, beforeTick s = { s with dt := dt, st := st, pending := pending, draws := draws } := by
  obtain ⟨dt, st, h⟩ := decreaseTimersBy_eq (decrementsBefore (nextHostTick s) s) (consumeHostTick s)
  rw [beforeTick, h]
  unfold consumeHostTick
  split
  · exact ⟨dt, st, s.pending, s.draws + 1, rfl⟩
  · rename_i rest _
    exact ⟨dt, st, rest, s.draws, rfl⟩

end Sys2Proof.Machine
end

