-- ==== Sys2Proof/Laws/Display.lean ====
section
/-! SUPPORT. What the drawing operations do to each pixel: one lemma for each (43_display.md R201, R202). -/

namespace Sys2Proof.Machine

/-- Inverting one pixel inverts it and leaves the others. -/
theorem Display.pixel_toggle (d : Display) (px qx : Fin 64) (py qy : Fin 32) :
    (d.toggle px py).pixel qx qy = (d.pixel qx qy).xor (decide (qx = px ∧ qy = py)) := by
  simp only [Display.pixel, Display.toggle, Vector.get_eq_getElem, Vector.getElem_set]
  by_cases hx : qx = px
  · subst hx
    by_cases hy : qy = py
    · subst hy; simp
    · have : py.val ≠ qy.val := fun e => hy (Fin.ext e.symm)
      simp [hy, this]
  · have : px.val ≠ qx.val := fun e => hx (Fin.ext e.symm)
    simp [hx, this]

@[simp] theorem Display.pixel_blank (px : Fin 64) (py : Fin 32) : Display.blank.pixel px py = false := by
  simp [Display.pixel, Display.blank, Vector.get_eq_getElem]

/-- Two displays with the same pixels are the same. -/
theorem Display.ext_pixel {d e : Display} (h : ∀ px py, d.pixel px py = e.pixel px py) : d = e := by
  apply Vector.ext
  intro x hx
  apply Vector.ext
  intro y hy
  exact h ⟨x, hx⟩ ⟨y, hy⟩

/-- Touching a pixel inverts it, and reports a hit exactly when it was set. -/
theorem Canvas.touch_spec (c : Canvas) (col row : Nat) :
    (∀ px py, (c.touch col row).display.pixel px py =
      (c.display.pixel px py).xor (decide (px.val = col % 64 ∧ py.val = row % 32))) ∧
    (c.touch col row).hit = (c.hit || c.display.pixel (Fin.ofNat 64 col) (Fin.ofNat 32 row)) := by
  refine ⟨fun px py => ?_, rfl⟩
  simp only [Canvas.touch, Display.pixel_toggle, Fin.ext_iff, Fin.val_ofNat]

/-- A pixel under a 1 bit in the first `k` columns of a row. -/
abbrev inColumns (col row : Nat) (b : Byte) (k : Nat) (px : Fin 64) (py : Fin 32) : Prop :=
  py.val = row % 32 ∧ ∃ c, c < k ∧ px.val = (col + c) % 64 ∧ b.getLsbD (7 - c) = true

/-- Drawing the first `k` columns of a row inverts exactly the pixels under them, and hits when one of them was set. -/
theorem drawColumns_spec (col row : Nat) (b : Byte) (c : Canvas) (k : Nat) (hk : k ≤ 8) :
    (∀ px py, (Canvas.drawColumns col row b c k).display.pixel px py =
      (c.display.pixel px py).xor (decide (inColumns col row b k px py))) ∧
    ((Canvas.drawColumns col row b c k).hit = true ↔
      c.hit = true ∨ ∃ px py, inColumns col row b k px py ∧ c.display.pixel px py = true) := by
  induction k with
  | zero => simp [Canvas.drawColumns, inColumns]
  | succ k ih =>
    obtain ⟨ihp, ihh⟩ := ih (by omega)
    rw [Canvas.drawColumns]
    by_cases hb : b.getLsbD (7 - k) = true
    · simp only [hb, if_true]
      obtain ⟨tp, th⟩ := Canvas.touch_spec (Canvas.drawColumns col row b c k) (col + k) row
      have key : ∀ px py, inColumns col row b (k + 1) px py ↔ inColumns col row b k px py ∨ (px.val = (col + k) % 64 ∧ py.val = row % 32) := by
        intro px py
        constructor
        · rintro ⟨h1, c', hc, h2, h3⟩
          by_cases e : c' = k
          · subst e; exact .inr ⟨h2, h1⟩
          · exact .inl ⟨h1, c', by omega, h2, h3⟩
        · rintro (⟨h1, c', hc, h2, h3⟩ | ⟨h1, h2⟩)
          · exact ⟨h1, c', by omega, h2, h3⟩
          · exact ⟨h2, k, by omega, h1, hb⟩
      have disj : ∀ px py, inColumns col row b k px py → ¬ (px.val = (col + k) % 64 ∧ py.val = row % 32) := by
        rintro px py ⟨h1, c', hc, h2, h3⟩ ⟨h4, h5⟩
        omega
      constructor
      · intro px py
        rw [tp, ihp]
        by_cases h1 : inColumns col row b k px py
        · have h2 := disj px py h1
          have h3 := (key px py).2 (.inl h1)
          rw [decide_eq_true h1, decide_eq_false h2, decide_eq_true h3]; simp
        · by_cases h2 : px.val = (col + k) % 64 ∧ py.val = row % 32
          · have h3 := (key px py).2 (.inr h2)
            rw [decide_eq_false h1, decide_eq_true h2, decide_eq_true h3]; simp
          · have h3 : ¬ inColumns col row b (k+1) px py := fun h => ((key px py).1 h).elim h1 h2
            rw [decide_eq_false h1, decide_eq_false h2, decide_eq_false h3]; simp
      · rw [th, Bool.or_eq_true, ihh]
        have hnew : ¬ inColumns col row b k (Fin.ofNat 64 (col + k)) (Fin.ofNat 32 row) := fun h => disj _ _ h ⟨rfl, rfl⟩
        rw [ihp, decide_eq_false hnew, Bool.xor_false]
        constructor
        · rintro ((h | ⟨px, py, h1, h2⟩) | h)
          · exact .inl h
          · exact .inr ⟨px, py, (key px py).2 (.inl h1), h2⟩
          · exact .inr ⟨_, _, (key _ _).2 (.inr ⟨rfl, rfl⟩), h⟩
        · rintro (h | ⟨px, py, h1, h2⟩)
          · exact .inl (.inl h)
          · rcases (key px py).1 h1 with h | ⟨h, h'⟩
            · exact .inl (.inr ⟨px, py, h, h2⟩)
            · right
              rw [show Fin.ofNat 64 (col + k) = px from Fin.ext h.symm, show Fin.ofNat 32 row = py from Fin.ext h'.symm]; exact h2
    · have key : ∀ px py, inColumns col row b (k + 1) px py ↔ inColumns col row b k px py := by
        intro px py
        constructor
        · rintro ⟨h1, c', hc, h2, h3⟩
          have : c' ≠ k := fun e => hb (e ▸ h3)
          exact ⟨h1, c', by omega, h2, h3⟩
        · rintro ⟨h1, c', hc, h2, h3⟩
          exact ⟨h1, c', by omega, h2, h3⟩
      simp only [hb, if_false, Bool.false_eq_true]
      refine ⟨fun px py => ?_, ?_⟩
      · rw [ihp, decide_eq_decide.2 (key px py)]
      · simp only [ihh, key]

/-- A pixel under a 1 bit of the sprite rows. -/
abbrev inRows (col row : Nat) (bytes : List Byte) (px : Fin 64) (py : Fin 32) : Prop :=
  ∃ r, ∃ h : r < bytes.length, inColumns col (row + r) bytes[r] 8 px py

/-- Drawing sprite rows inverts exactly the pixels under the sprite, and hits when one of them was set
(43_display.md R202, R205: no pixel is touched twice). -/
theorem drawRows_spec (col row : Nat) (bytes : List Byte) (c : Canvas) (hl : bytes.length ≤ 32) :
    (∀ px py, (Canvas.drawRows col row c bytes).display.pixel px py =
      (c.display.pixel px py).xor (decide (inRows col row bytes px py))) ∧
    ((Canvas.drawRows col row c bytes).hit = true ↔
      c.hit = true ∨ ∃ px py, inRows col row bytes px py ∧ c.display.pixel px py = true) := by
  induction bytes generalizing row c with
  | nil => simp [Canvas.drawRows, inRows]
  | cons b rest ih =>
    simp only [List.length_cons] at hl
    obtain ⟨rp, rh⟩ := ih (row + 1) (c.drawRow col row b) (by omega)
    obtain ⟨cp, ch⟩ := drawColumns_spec col row b c 8 (le_refl 8)
    have key : ∀ px py, inRows col row (b :: rest) px py ↔ inColumns col row b 8 px py ∨ inRows col (row + 1) rest px py := by
      intro px py
      constructor
      · rintro ⟨r, hr, h⟩
        cases r with
        | zero => exact .inl h
        | succ r => 
          refine .inr ⟨r, by simpa using hr, ?_⟩
          rw [show row + 1 + r = row + (r + 1) by omega]; exact h
      · rintro (h | ⟨r, hr, h⟩)
        · exact ⟨0, by simp, h⟩
        · refine ⟨r + 1, by simpa using hr, ?_⟩
          rw [show row + 1 + r = row + (r + 1) by omega] at h; exact h
    have disj : ∀ px py, inColumns col row b 8 px py → ¬ inRows col (row + 1) rest px py := by
      rintro px py ⟨h1, _⟩ ⟨r, hr, h2, _⟩
      omega
    rw [Canvas.drawRows]
    constructor
    · intro px py
      rw [rp, Canvas.drawRow, cp]
      by_cases h1 : inColumns col row b 8 px py
      · have h2 := disj px py h1
        have h3 := (key px py).2 (.inl h1)
        rw [decide_eq_true h1, decide_eq_false h2, decide_eq_true h3]; simp
      · by_cases h2 : inRows col (row + 1) rest px py
        · have h3 := (key px py).2 (.inr h2)
          rw [decide_eq_false h1, decide_eq_true h2, decide_eq_true h3]; simp
        · have h3 : ¬ inRows col row (b :: rest) px py := fun h => ((key px py).1 h).elim h1 h2
          rw [decide_eq_false h1, decide_eq_false h2, decide_eq_false h3]; simp
    · rw [rh, Canvas.drawRow, ch]
      constructor
      · rintro ((h | ⟨px, py, h1, h2⟩) | ⟨px, py, h1, h2⟩)
        · exact .inl h
        · exact .inr ⟨px, py, (key px py).2 (.inl h1), h2⟩
        · refine .inr ⟨px, py, (key px py).2 (.inr h1), ?_⟩
          rw [cp, decide_eq_false (fun h => disj px py h h1)] at h2
          simpa using h2
      · rintro (h | ⟨px, py, h1, h2⟩)
        · exact .inl (.inl h)
        · rcases (key px py).1 h1 with h | h
          · exact .inl (.inr ⟨px, py, h, h2⟩)
          · refine .inr ⟨px, py, h, ?_⟩
            rw [cp, decide_eq_false (fun h' => disj px py h' h)]
            simpa using h2

end Sys2Proof.Machine
end

