-- ==== Sys2Proof/Laws/HostOps.lean ====
section
/-! SUPPORT. Laws of the timers, the font's bytes and the host's loads, and the frame of `exec` on the model's own fields. -/

namespace Sys2Proof.Machine

/-- A timer counts down by one and saturates at zero. -/
theorem countDown_toNat (b : Byte) : (countDown b).toNat = b.toNat - 1 := by
  unfold countDown
  split
  · rename_i h; subst h; rfl
  · rename_i h
    have : b.toNat ≠ 0 := fun e => h (BitVec.eq_of_toNat_eq e)
    have := b.isLt
    simp [BitVec.toNat_sub]; omega

/-- FONT is 80 bytes. -/
theorem Font.length_bytes (f : Font) : (Font.bytes f).length = 80 := by
  simp [Font.bytes, List.length_flatMap]

/-- Byte `5 d + r` of some glyphs is row `r` of glyph `d`. -/
theorem getElem_flatMap_glyphs (l : List Glyph) (d : Nat) (hd : d < l.length) (r : Fin 5)
    (h : 5 * d + r.val < (l.flatMap Vector.toList).length) :
    (l.flatMap Vector.toList)[5 * d + r.val] = l[d].get r := by
  induction l generalizing d with
  | nil => simp at hd
  | cons g l ih =>
    cases d with
    | zero => simp [List.flatMap_cons, Vector.get_eq_getElem]
    | succ d =>
      simp only [List.flatMap_cons, List.getElem_cons_succ]
      rw [List.getElem_append_right (by simp; omega), ← ih d (by simpa using hd) (by simp at h ⊢; omega)]
      congr 1; simp; omega

/-- Byte `5 d + r` of FONT is row `r` of glyph `d` (10_state.md R38). -/
theorem Font.getElem_bytes (f : Font) (d : Fin 16) (r : Fin 5) (h : 5 * d.val + r.val < (Font.bytes f).length) :
    (Font.bytes f)[5 * d.val + r.val] = (f.get d).get r :=
  (getElem_flatMap_glyphs f.toList d.val (by simp) r h).trans (by simp [Vector.get_eq_getElem])

/-- load_font() writes FONT at address 0, or is refused after the first tick. -/
theorem loadFont_cases (s : State) :
    (s.started = true ∧ loadFont s = .refused .loadAfterFirstTick) ∨
      (s.started = false ∧ loadFont s = .next (s.setMem (s.mem.writeBytes 0 (Font.bytes s.params.font)))) := by
  unfold loadFont
  cases s.started <;> simp

/-- load_rom() writes its bytes at 0x200, returns ROM_TOO_LARGE, or is refused after the first tick. -/
theorem loadRom_cases (bytes : List Byte) (s : State) :
    (s.started = true ∧ loadRom bytes s = .refused .loadAfterFirstTick) ∨
    (s.started = false ∧ 3584 < bytes.length ∧ loadRom bytes s = .next (s, .romTooLarge)) ∨
    (s.started = false ∧ bytes.length ≤ 3584 ∧
      loadRom bytes s = .next (s.setMem (s.mem.writeBytes 0x200 bytes), .ok)) := by
  unfold loadRom programBytes programBase
  cases h : s.started
  · by_cases hl : 3584 < bytes.length
    · simp [hl]
    · simp [hl]; omega
  · simp

/-- What an instruction never writes: the parameters and the model's own fields. -/
abbrev SameModelFields (s t : State) : Prop :=
  t.params = s.params ∧ t.started = s.started ∧ t.input = s.input ∧ t.pending = s.pending ∧ t.draws = s.draws

theorem sameModelFields_exec {i : Instr} {s t : State} (hu : exec i s = .next t) : SameModelFields s t := by
  cases i with
  | ret =>
    simp only [exec, execRet] at hu
    split at hu <;> cases hu <;> exact ⟨rfl, rfl, rfl, rfl, rfl⟩
  | call nnn =>
    simp only [exec, execCall] at hu
    split at hu <;> cases hu <;> exact ⟨rfl, rfl, rfl, rfl, rfl⟩
  | drw x y n =>
    simp only [exec, execDrw] at hu
    split at hu <;> cases hu <;> exact ⟨rfl, rfl, rfl, rfl, rfl⟩
  | skp x =>
    rcases skipOnKey_cases (encode (.skp x)) x true s with ⟨k, _, h⟩ | ⟨h, _⟩ <;>
      simp only [exec, execSkp, h] at hu <;> cases hu <;> exact ⟨rfl, rfl, rfl, rfl, rfl⟩
  | sknp x =>
    rcases skipOnKey_cases (encode (.sknp x)) x false s with ⟨k, _, h⟩ | ⟨h, _⟩ <;>
      simp only [exec, execSknp, h] at hu <;> cases hu <;> exact ⟨rfl, rfl, rfl, rfl, rfl⟩
  | ldVxK x =>
    simp only [exec, execLdVxK] at hu
    cases hu
    split <;> exact ⟨rfl, rfl, rfl, rfl, rfl⟩
  | ldBVx x =>
    rcases storeAtI_cases (encode (.ldBVx x)) (decimalDigits (s.getV x)) s.i s with ⟨h, _⟩ | ⟨h, _⟩ | ⟨h, _⟩ <;>
      simp only [exec, execLdBVx, h] at hu <;> cases hu <;> exact ⟨rfl, rfl, rfl, rfl, rfl⟩
  | ldMemVx x =>
    rcases storeAtI_cases (encode (.ldMemVx x)) (registersUpTo x s) (indexAfter s.i x) s with
        ⟨h, _⟩ | ⟨h, _⟩ | ⟨h, _⟩ <;>
      simp only [exec, execLdMemVx, h] at hu <;> cases hu <;> exact ⟨rfl, rfl, rfl, rfl, rfl⟩
  | ldVxMem x =>
    simp only [exec, execLdVxMem] at hu
    split at hu <;> cases hu <;> exact ⟨rfl, rfl, rfl, rfl, rfl⟩
  | _ => cases hu; exact ⟨rfl, rfl, rfl, rfl, rfl⟩

end Sys2Proof.Machine
end

