-- ==== Sys2Proof/Laws/PerInstr.lean ====
section
/-! SUPPORT. Statements made for every instruction, one lemma a constructor. The family WordInRow: an instruction's word
is selected by its own row of the opcode map (30_encoding.md R103), so the encoder sets every fixed bit. -/

namespace Sys2Proof.Laws.WordInRow

/-- The mask and the match of an instruction's row (30_encoding.md R103). -/
def row : Instr → Word × Word
  | .cls => (0xFFFF, 0x00E0)
  | .ret => (0xFFFF, 0x00EE)
  | .jp _ => (0xF000, 0x1000)
  | .call _ => (0xF000, 0x2000)
  | .seVxKk _ _ => (0xF000, 0x3000)
  | .sneVxKk _ _ => (0xF000, 0x4000)
  | .seVxVy _ _ => (0xF00F, 0x5000)
  | .sneVxVy _ _ => (0xF00F, 0x9000)
  | .ldVxKk _ _ => (0xF000, 0x6000)
  | .addVxKk _ _ => (0xF000, 0x7000)
  | .ldVxVy _ _ => (0xF00F, 0x8000)
  | .orVxVy _ _ => (0xF00F, 0x8001)
  | .andVxVy _ _ => (0xF00F, 0x8002)
  | .xorVxVy _ _ => (0xF00F, 0x8003)
  | .addVxVy _ _ => (0xF00F, 0x8004)
  | .subVxVy _ _ => (0xF00F, 0x8005)
  | .subnVxVy _ _ => (0xF00F, 0x8007)
  | .shrVxVy _ _ => (0xF00F, 0x8006)
  | .shlVxVy _ _ => (0xF00F, 0x800E)
  | .ldI _ => (0xF000, 0xA000)
  | .jpV0 _ => (0xF000, 0xB000)
  | .rnd _ _ => (0xF000, 0xC000)
  | .drw _ _ _ => (0xF000, 0xD000)
  | .skp _ => (0xF0FF, 0xE09E)
  | .sknp _ => (0xF0FF, 0xE0A1)
  | .ldVxDt _ => (0xF0FF, 0xF007)
  | .ldVxK _ => (0xF0FF, 0xF00A)
  | .ldDtVx _ => (0xF0FF, 0xF015)
  | .ldStVx _ => (0xF0FF, 0xF018)
  | .addIVx _ => (0xF0FF, 0xF01E)
  | .ldFVx _ => (0xF0FF, 0xF029)
  | .ldBVx _ => (0xF0FF, 0xF033)
  | .ldMemVx _ => (0xF0FF, 0xF055)
  | .ldVxMem _ => (0xF0FF, 0xF065)

/-- The word of an instruction lies in its row. -/
def Statement (i : Instr) : Prop := encode i &&& (row i).1 = (row i).2

theorem nibble_and_ones (m : Nibble) : m &&& 15#4 = m := BitVec.and_allOnes

theorem byte_and_ones (b : Byte) : b &&& 255#8 = b := BitVec.and_allOnes

theorem nnn_mask (m : Nibble) (nnn : Addr12) : formatNnn m nnn &&& 0xF000 = formatNnn m 0 := by
  rw [formatNnn, show (0xF000 : Word) = (0xF : Nibble) ++ (0 : Addr12) from rfl, BitVec.and_append]
  simp [formatNnn, nibble_and_ones]

theorem xkk_mask (m : Nibble) (x : Reg) (kk : Byte) : formatXkk m x kk &&& 0xF000 = formatXkk m 0 0 := by
  rw [formatXkk, show (0xF000 : Word) = (0xF : Nibble) ++ (0 : Nibble) ++ (0 : Byte) from rfl, BitVec.and_append,
    BitVec.and_append]
  simp [formatXkk, regField, nibble_and_ones]

theorem x_mask (m : Nibble) (x : Reg) (kk : Byte) : formatXkk m x kk &&& 0xF0FF = formatXkk m 0 kk := by
  rw [formatXkk, show (0xF0FF : Word) = (0xF : Nibble) ++ (0 : Nibble) ++ (0xFF : Byte) from rfl, BitVec.and_append,
    BitVec.and_append]
  simp [formatXkk, regField, nibble_and_ones, byte_and_ones]

theorem xyn_mask (m : Nibble) (x y : Reg) (n : Nibble) : formatXyn m x y n &&& 0xF000 = formatXyn m 0 0 0 := by
  rw [formatXyn, show (0xF000 : Word) = (0xF : Nibble) ++ (0 : Nibble) ++ (0 : Nibble) ++ (0 : Nibble) from rfl,
    BitVec.and_append, BitVec.and_append, BitVec.and_append]
  simp [formatXyn, regField, nibble_and_ones]

theorem xy_mask (m : Nibble) (x y : Reg) (n : Nibble) : formatXyn m x y n &&& 0xF00F = formatXyn m 0 0 n := by
  rw [formatXyn, show (0xF00F : Word) = (0xF : Nibble) ++ (0 : Nibble) ++ (0 : Nibble) ++ (0xF : Nibble) from rfl,
    BitVec.and_append, BitVec.and_append, BitVec.and_append]
  simp [formatXyn, regField, nibble_and_ones]

theorem cls : Statement (.cls) := rfl
theorem ret : Statement (.ret) := rfl
theorem jp (nnn : Addr12) : Statement (.jp nnn) := nnn_mask 0x1 nnn
theorem call (nnn : Addr12) : Statement (.call nnn) := nnn_mask 0x2 nnn
theorem seVxKk (x : Reg) (kk : Byte) : Statement (.seVxKk x kk) := xkk_mask 0x3 x kk
theorem sneVxKk (x : Reg) (kk : Byte) : Statement (.sneVxKk x kk) := xkk_mask 0x4 x kk
theorem seVxVy (x : Reg) (y : Reg) : Statement (.seVxVy x y) := xy_mask 0x5 x y 0x0
theorem sneVxVy (x : Reg) (y : Reg) : Statement (.sneVxVy x y) := xy_mask 0x9 x y 0x0
theorem ldVxKk (x : Reg) (kk : Byte) : Statement (.ldVxKk x kk) := xkk_mask 0x6 x kk
theorem addVxKk (x : Reg) (kk : Byte) : Statement (.addVxKk x kk) := xkk_mask 0x7 x kk
theorem ldVxVy (x : Reg) (y : Reg) : Statement (.ldVxVy x y) := xy_mask 0x8 x y 0x0
theorem orVxVy (x : Reg) (y : Reg) : Statement (.orVxVy x y) := xy_mask 0x8 x y 0x1
theorem andVxVy (x : Reg) (y : Reg) : Statement (.andVxVy x y) := xy_mask 0x8 x y 0x2
theorem xorVxVy (x : Reg) (y : Reg) : Statement (.xorVxVy x y) := xy_mask 0x8 x y 0x3
theorem addVxVy (x : Reg) (y : Reg) : Statement (.addVxVy x y) := xy_mask 0x8 x y 0x4
theorem subVxVy (x : Reg) (y : Reg) : Statement (.subVxVy x y) := xy_mask 0x8 x y 0x5
theorem subnVxVy (x : Reg) (y : Reg) : Statement (.subnVxVy x y) := xy_mask 0x8 x y 0x7
theorem shrVxVy (x : Reg) (y : Reg) : Statement (.shrVxVy x y) := xy_mask 0x8 x y 0x6
theorem shlVxVy (x : Reg) (y : Reg) : Statement (.shlVxVy x y) := xy_mask 0x8 x y 0xE
theorem ldI (nnn : Addr12) : Statement (.ldI nnn) := nnn_mask 0xA nnn
theorem jpV0 (nnn : Addr12) : Statement (.jpV0 nnn) := nnn_mask 0xB nnn
theorem rnd (x : Reg) (kk : Byte) : Statement (.rnd x kk) := xkk_mask 0xC x kk
theorem drw (x : Reg) (y : Reg) (n : Nat) : Statement (.drw x y n) := xyn_mask 0xD x y (BitVec.ofNat 4 n)
theorem skp (x : Reg) : Statement (.skp x) := x_mask 0xE x 0x9E
theorem sknp (x : Reg) : Statement (.sknp x) := x_mask 0xE x 0xA1
theorem ldVxDt (x : Reg) : Statement (.ldVxDt x) := x_mask 0xF x 0x07
theorem ldVxK (x : Reg) : Statement (.ldVxK x) := x_mask 0xF x 0x0A
theorem ldDtVx (x : Reg) : Statement (.ldDtVx x) := x_mask 0xF x 0x15
theorem ldStVx (x : Reg) : Statement (.ldStVx x) := x_mask 0xF x 0x18
theorem addIVx (x : Reg) : Statement (.addIVx x) := x_mask 0xF x 0x1E
theorem ldFVx (x : Reg) : Statement (.ldFVx x) := x_mask 0xF x 0x29
theorem ldBVx (x : Reg) : Statement (.ldBVx x) := x_mask 0xF x 0x33
theorem ldMemVx (x : Reg) : Statement (.ldMemVx x) := x_mask 0xF x 0x55
theorem ldVxMem (x : Reg) : Statement (.ldVxMem x) := x_mask 0xF x 0x65

end Sys2Proof.Laws.WordInRow
end

