-- ==== Sys2Proof/Laws/Runs.lean ====
section
/-! SUPPORT. Runs of many steps: the induction over a run, packaged once. -/

namespace Sys2Proof.Machine

theorem runsTo_zero (s t : State) : runsTo 0 s t ↔ t = s := by
  constructor
  · intro h; cases h; rfl
  · intro h; rw [h]; rfl

theorem coreRun_succ (M : Host.Core) (k : Nat) (s t : M.State) :
    M.run (k + 1) s = .next t ↔ ∃ u, M.step s = .next u ∧ M.run k u = .next t := by
  rw [Host.Core.run]
  cases M.step s with
  | next u => simp
  | fault r => simp
  | refused r => simp

theorem runsTo_succ (k : Nat) (s t : State) : runsTo (k + 1) s t ↔ ∃ u, step s = .next u ∧ runsTo k u t :=
  coreRun_succ Sys2Proof.core k s t

/-- What every step keeps holds at the end of every run. -/
theorem runsTo_keeps (P : State → State → Prop) (refl : ∀ s, P s s)
    (cons : ∀ s u t, step s = .next u → P u t → P s t) {k : Nat} {s t : State} (h : runsTo k s t) : P s t := by
  induction k generalizing s with
  | zero => rw [(runsTo_zero s t).1 h]; exact refl s
  | succ k ih =>
    obtain ⟨u, hu, hr⟩ := (runsTo_succ k s t).1 h
    exact cons s u t hu (ih hr)

end Sys2Proof.Machine
end

