-- ==== Sys2Proof/Tests/Slice0.lean ====
section
/-! SUPPORT. Tests of our own: what WellFormed refuses, words written out from spec/30_encoding.md R103, one step of each
instruction with its result from spec/95_test_vectors.md, and for each statement a state and operands that meet its
hypotheses. -/

namespace Sys2Proof.Tests

open Sys2Proof.Machine

/-! ### WellFormed -/

theorem test_wellFormed_refuses_sixteen_rows : Instr.wellFormed (.drw 0 0 16) = false := by decide
theorem test_wellFormed_admits_fifteen_rows : Instr.wellFormed (.drw 15 15 15) = true := by decide

/-! ### Decoding: words written out from the patterns of 30_encoding.md R103 -/

theorem test_decode_flow :
    decode 0x00E0 = .ok .cls ∧ decode 0x00EE = .ok .ret ∧ decode 0x1FFF = .ok (.jp 0xFFF) ∧
    decode 0x220C = .ok (.call 0x20C) ∧ decode 0x3310 = .ok (.seVxKk 3 0x10) ∧
    decode 0x452A = .ok (.sneVxKk 5 0x2A) ∧ decode 0x5120 = .ok (.seVxVy 1 2) ∧
    decode 0x9E10 = .ok (.sneVxVy 14 1) ∧ decode 0xB301 = .ok (.jpV0 0x301) := by decide

theorem test_decode_alu :
    decode 0x6A7B = .ok (.ldVxKk 10 0x7B) ∧ decode 0x71FF = .ok (.addVxKk 1 0xFF) ∧
    decode 0x8120 = .ok (.ldVxVy 1 2) ∧ decode 0x8121 = .ok (.orVxVy 1 2) ∧
    decode 0x8122 = .ok (.andVxVy 1 2) ∧ decode 0x8123 = .ok (.xorVxVy 1 2) ∧
    decode 0x8F14 = .ok (.addVxVy 15 1) ∧ decode 0x8125 = .ok (.subVxVy 1 2) ∧
    decode 0x8127 = .ok (.subnVxVy 1 2) ∧ decode 0x8126 = .ok (.shrVxVy 1 2) ∧
    decode 0x812E = .ok (.shlVxVy 1 2) ∧ decode 0xC10F = .ok (.rnd 1 0x0F) := by decide

theorem test_decode_memory_display_devices :
    decode 0xA300 = .ok (.ldI 0x300) ∧ decode 0xF11E = .ok (.addIVx 1) ∧ decode 0xF429 = .ok (.ldFVx 4) ∧
    decode 0xF333 = .ok (.ldBVx 3) ∧ decode 0xFF55 = .ok (.ldMemVx 15) ∧ decode 0xF465 = .ok (.ldVxMem 4) ∧
    decode 0xD125 = .ok (.drw 1 2 5) ∧ decode 0xE19E = .ok (.skp 1) ∧ decode 0xE1A1 = .ok (.sknp 1) ∧
    decode 0xF007 = .ok (.ldVxDt 0) ∧ decode 0xF30A = .ok (.ldVxK 3) ∧ decode 0xF015 = .ok (.ldDtVx 0) ∧
    decode 0xF018 = .ok (.ldStVx 0) := by decide

theorem test_decode_refuses_by_name :
    decode 0x0000 = .error .invalid0nnn ∧ decode 0x0FFF = .error .invalid0nnn ∧
    decode 0x5121 = .error .invalid5xyn ∧ decode 0x8008 = .error .invalid8xyn ∧
    decode 0x8FFF = .error .invalid8xyn ∧ decode 0x9001 = .error .invalid9xyn ∧
    decode 0xE000 = .error .invalidExkk ∧ decode 0xEF9F = .error .invalidExkk ∧
    decode 0xF000 = .error .invalidFxkk ∧ decode 0xFFFF = .error .invalidFxkk := by decide

theorem test_decodeTableWord_reads_one_word :
    decodeTableWord 16 0xD125 = some (.drw 1 2 5) ∧ decodeTableWord 16 0x5121 = none := by decide

/-! ### One tick of one word (95_test_vectors.md 2.1 to 2.7, section 1) -/

/-- Whether a result is a next state with a property. -/
def gives (r : Result) (p : State → Bool) : Bool :=
  match r with
  | .next t => p t
  | _ => false

/-- A tick of the word `op`, stored at the pc, ends in a state with a property. -/
def ticks (inp : TickInput) (op : Word) (s : State) (p : State → Bool) : Bool :=
  gives (tick inp (storeFetchWord op s)) p

/-- The reset state with registers written. -/
def regs (l : List (Reg × Byte)) : State := l.foldl (fun s c => s.setV c.1 c.2) State.reset

/-- A state with bytes written from `a` up. -/
def poke (a : Nat) (bytes : List Byte) (s : State) : State := s.setMem (s.mem.writeBytes a bytes)

/-- Inputs with some keys down. -/
def keys (l : List Key) : TickInput :=
  { TickInput.idle with keys := l.foldl (fun v k => v.set k.val true k.isLt) TickInput.idle.keys }

/-- Inputs with a random byte. -/
def rnd (b : Byte) : TickInput := { TickInput.idle with rnd := b }

/-- The state with the stack pointer `sp`. -/
def depth (sp : Fin 17) (s : State) : State := { s with sp := sp }

/-- The state with the other SHIFT_SRC. -/
def shiftsVx (s : State) : State := { s with params := { s.params with shiftSrc := .vx } }

/-- The state with the pc at `pc`. -/
def atPc (pc : Word) (s : State) : State := { s with pc := pc }

/-- A state halted by an invalid word. -/
def halted : State := State.reset.record .decodeError 0 0 0

theorem test_invalid_word_faults :
    ticks TickInput.idle 0x5121 (State.reset)
      (fun t => t.flt == some ⟨.decodeError, 0x200, 0x5121, 0, 0⟩ && t.pc == 0x200) = true := by decide
theorem test_fetch_at_FFF_faults :
    gives (tick TickInput.idle (atPc 0xFFF State.reset))
      (fun t => t.flt == some ⟨.fetchOutOfRange, 0xFFF, 0, 0, 0⟩) = true := by decide
theorem test_fetch_at_FFE_runs :
    ticks TickInput.idle 0x6A01 (atPc 0xFFE State.reset)
      (fun t => t.getV 10 == 1 && t.pc == 0x1000) = true := by decide
theorem test_ret_pops :
    ticks TickInput.idle 0x00EE ({ atPc 0x20E State.reset with sp := 1, stack := State.reset.stack.set 0 0x204 })
      (fun t => t.pc == 0x206 && t.sp == 0 && t.stack.get 0 == 0x204) = true := by decide
theorem test_ret_underflow :
    ticks TickInput.idle 0x00EE (State.reset)
      (fun t => t.flt == some ⟨.stackUnderflow, 0x200, 0x00EE, 0, 0⟩) = true := by decide
theorem test_jp :
    ticks TickInput.idle 0x1FFF (State.reset) (fun t => t.pc == 0xFFF) = true := by decide
theorem test_call_last_slot :
    ticks TickInput.idle 0x2300 (depth 15 State.reset)
      (fun t => t.stack.get 15 == 0x200 && t.sp == 16 && t.pc == 0x300) = true := by decide
theorem test_call_overflow :
    ticks TickInput.idle 0x2300 (depth 16 State.reset)
      (fun t => t.flt == some ⟨.stackOverflow, 0x200, 0x2300, 0, 0⟩ && t.sp == 16) = true := by decide
theorem test_se_kk_equal :
    ticks TickInput.idle 0x3310 (regs [(3, 0x10)]) (fun t => t.pc == 0x204) = true := by decide
theorem test_se_kk_unequal :
    ticks TickInput.idle 0x3310 (regs [(3, 0x11)]) (fun t => t.pc == 0x202) = true := by decide
theorem test_sne_kk_equal :
    ticks TickInput.idle 0x4310 (regs [(3, 0x10)]) (fun t => t.pc == 0x202) = true := by decide
theorem test_sne_kk_source_scenario :
    ticks TickInput.idle 0x452A (regs [(5, 2)]) (fun t => t.pc == 0x204) = true := by decide
theorem test_se_reg :
    ticks TickInput.idle 0x5120 (regs [(1, 7), (2, 7)]) (fun t => t.pc == 0x204) = true := by decide
theorem test_sne_reg_same :
    ticks TickInput.idle 0x9110 (regs [(1, 3)]) (fun t => t.pc == 0x202) = true := by decide
theorem test_sne_reg :
    ticks TickInput.idle 0x9120 (regs [(1, 7), (2, 8)]) (fun t => t.pc == 0x204) = true := by decide
theorem test_jp_v0_not_masked :
    ticks TickInput.idle 0xBFFF (regs [(0, 0xFF)]) (fun t => t.pc == 0x10FE) = true := by decide
theorem test_ld_kk :
    ticks TickInput.idle 0x6A7B (State.reset) (fun t => t.getV 10 == 0x7B && t.pc == 0x202) = true := by decide
theorem test_add_kk_wraps :
    ticks TickInput.idle 0x71FF (regs [(1, 1), (15, 0x55)])
      (fun t => t.getV 1 == 0 && t.getV 15 == 0x55) = true := by decide
theorem test_ld_reg :
    ticks TickInput.idle 0x8120 (regs [(2, 0x99)]) (fun t => t.getV 1 == 0x99) = true := by decide
theorem test_or :
    ticks TickInput.idle 0x8121 (regs [(1, 0xF0), (2, 0x0F), (15, 0x55)])
      (fun t => t.getV 1 == 0xFF && t.getV 15 == 0x55) = true := by decide
theorem test_and :
    ticks TickInput.idle 0x8122 (regs [(1, 0xF0), (2, 0x3C), (15, 0x55)])
      (fun t => t.getV 1 == 0x30 && t.getV 15 == 0x55) = true := by decide
theorem test_xor :
    ticks TickInput.idle 0x8123 (regs [(1, 0xF0), (2, 0x3C), (15, 0x55)])
      (fun t => t.getV 1 == 0xCC && t.getV 15 == 0x55) = true := by decide
theorem test_add_carry :
    ticks TickInput.idle 0x8124 (regs [(1, 0xFF), (2, 1)])
      (fun t => t.getV 1 == 0 && t.getV 15 == 1) = true := by decide
theorem test_add_flag_last :
    ticks TickInput.idle 0x8F14 (regs [(15, 0x10), (1, 1)]) (fun t => t.getV 15 == 0) = true := by decide
theorem test_sub_equal_strict :
    ticks TickInput.idle 0x8125 (regs [(1, 5), (2, 5), (15, 7)])
      (fun t => t.getV 1 == 0 && t.getV 15 == 0) = true := by decide
theorem test_sub_borrow :
    ticks TickInput.idle 0x8125 (regs [(2, 1)]) (fun t => t.getV 1 == 0xFF && t.getV 15 == 0) = true := by decide
theorem test_subn :
    ticks TickInput.idle 0x8127 (regs [(1, 3), (2, 5)]) (fun t => t.getV 1 == 2 && t.getV 15 == 1) = true := by decide
theorem test_subn_borrow :
    ticks TickInput.idle 0x8127 (regs [(1, 5), (2, 3)])
      (fun t => t.getV 1 == 0xFE && t.getV 15 == 0) = true := by decide
theorem test_shr_vy :
    ticks TickInput.idle 0x8126 (regs [(1, 0xAA), (2, 5)])
      (fun t => t.getV 1 == 2 && t.getV 2 == 5 && t.getV 15 == 1) = true := by decide
theorem test_shr_vx :
    ticks TickInput.idle 0x8126 (shiftsVx (regs [(1, 0xAA), (2, 5)]))
      (fun t => t.getV 1 == 0x55 && t.getV 15 == 0) = true := by decide
theorem test_shl_vy :
    ticks TickInput.idle 0x812E (regs [(2, 0x80)]) (fun t => t.getV 1 == 0 && t.getV 15 == 1) = true := by decide
theorem test_shl_vx :
    ticks TickInput.idle 0x812E (shiftsVx (regs [(1, 0x41), (2, 0x80)]))
      (fun t => t.getV 1 == 0x82 && t.getV 15 == 0) = true := by decide
theorem test_rnd_masks :
    ticks (rnd 0xB7) 0xC10F (State.reset) (fun t => t.getV 1 == 7) = true := by decide
theorem test_ld_i :
    ticks TickInput.idle 0xA300 (State.reset) (fun t => t.i == 0x300) = true := by decide
theorem test_add_i_wraps :
    ticks TickInput.idle 0xF11E ((regs [(1, 1), (15, 0x55)]).setI 0xFFFF)
      (fun t => t.i == 0 && t.getV 15 == 0x55) = true := by decide
theorem test_ld_f :
    ticks TickInput.idle 0xF429 (regs [(4, 0x0A)]) (fun t => t.i == 0x32) = true := by decide
theorem test_ld_f_not_masked :
    ticks TickInput.idle 0xF129 (regs [(1, 0xFF)]) (fun t => t.i == 0x4FB) = true := by decide
theorem test_bcd_last_bytes :
    ticks TickInput.idle 0xF133 ((regs [(1, 255)]).setI 0xFFD)
      (fun t => t.mem.readBytes 0xFFD 3 == [2, 5, 5] && t.i == 0xFFD) = true := by decide
theorem test_bcd_reserved :
    ticks TickInput.idle 0xF133 ((regs [(1, 255)]).setI 0x1FF)
      (fun t => t.flt == some ⟨.reservedWrite, 0x200, 0xF133, 0x1FF, 0⟩ && t.mem.read 0x1FF == 0) = true := by decide
theorem test_store_range :
    ticks TickInput.idle 0xFF55 (State.reset.setI 0xFF1)
      (fun t => t.flt == some ⟨.memOutOfRange, 0x200, 0xFF55, 0x1000, 0⟩) = true := by decide
theorem test_store_first :
    ticks TickInput.idle 0xF055 ((regs [(0, 9), (1, 8)]).setI 0x300)
      (fun t => t.mem.readBytes 0x300 2 == [9, 0] && t.i == 0x301) = true := by decide
theorem test_load_glyph_zero :
    ticks TickInput.idle 0xF465 (poke 0 [0xF0, 0x90, 0x90, 0x90, 0xF0] State.reset)
      (fun t => t.v.toList.take 6 == [0xF0, 0x90, 0x90, 0x90, 0xF0, 0] && t.i == 5) = true := by decide
theorem test_load_range :
    ticks TickInput.idle 0xF065 (State.reset.setI 0x1000)
      (fun t => t.flt == some ⟨.memOutOfRange, 0x200, 0xF065, 0x1000, 0⟩) = true := by decide
theorem test_cls :
    ticks TickInput.idle 0x00E0 (State.reset.setDisplay (State.reset.display.toggle 5 6))
      (fun t => !t.pixel 5 6 && t.chg && t.pc == 0x202) = true := by decide
theorem test_draw_wraps :
    ticks TickInput.idle 0xD122 (poke 0x300 [0xC0, 0xC0] ((regs [(1, 63), (2, 31)]).setI 0x300))
      (fun t => t.pixel 63 31 && t.pixel 0 31 && t.pixel 63 0 && t.pixel 0 0 && !t.pixel 1 0 &&
        t.getV 15 == 0 && t.chg) = true := by decide
theorem test_draw_collides :
    ticks TickInput.idle 0xD121 (poke 0x300 [0xC0] ((State.reset.setDisplay (State.reset.display.toggle 0 0)).setI 0x300))
      (fun t => !t.pixel 0 0 && t.pixel 1 0 && t.getV 15 == 1) = true := by decide
theorem test_skp_down :
    ticks (keys [7, 10]) 0xE19E (regs [(1, 7)]) (fun t => t.pc == 0x204) = true := by decide
theorem test_skp_no_key :
    ticks TickInput.idle 0xE19E (regs [(1, 0x10)])
      (fun t => t.flt == some ⟨.keyOutOfRange, 0x200, 0xE19E, 0, 0x10⟩) = true := by decide
theorem test_sknp_down :
    ticks (keys [7]) 0xE1A1 (regs [(1, 7)]) (fun t => t.pc == 0x202) = true := by decide
theorem test_sknp_up :
    ticks TickInput.idle 0xE1A1 (regs [(1, 7)]) (fun t => t.pc == 0x204) = true := by decide
theorem test_wait_for_key :
    ticks ({ TickInput.idle with exit := true }) 0xF30A (State.reset)
      (fun t => t.pc == 0x200 && t.getV 3 == 0) = true := by decide
theorem test_key_lowest_of_two :
    ticks (keys [3, 9]) 0xF30A (State.reset) (fun t => t.getV 3 == 3 && t.pc == 0x202) = true := by decide
theorem test_ld_dt :
    ticks TickInput.idle 0xF007 (State.reset.setDt 0x3C) (fun t => t.getV 0 == 0x3C) = true := by decide
theorem test_set_dt :
    ticks TickInput.idle 0xF015 (regs [(0, 7)]) (fun t => t.dt == 7) = true := by decide
theorem test_set_st :
    ticks TickInput.idle 0xF018 (regs [(0, 0x10)])
      (fun t => t.st == 0x10 && (status t).soundActive) = true := by decide
theorem test_timers_saturate :
    (decreaseTimers (State.reset.setSt 1)).st = 0 ∧ (decreaseTimers (State.reset.setSt 1)).dt = 0 ∧
    (decreaseTimers (halted.setDt 5)).dt = 5 := by decide
theorem test_load_rom_odd_length :
    (match loadRom [0xAB] State.reset with
    | .next (t, .ok) => t.mem.readBytes 0x200 2 == [0xAB, 0] && decode (fetchWord t) == .ok (.ldI 0xB00)
    | _ => false) = true := by decide

/-! ### States and operands that meet the hypotheses of the statements -/

/-- The reset state with a word where it fetches next. -/
def core (op : Word) : State := storeFetchWord op State.reset

/-- The state with ticks scheduled by the host. -/
def scheduled (l : List HostTick) (s : State) : State := { s with pending := l }

/-- The state under HOST_SCHEDULED. -/
def hostScheduled (s : State) : State := { s with params := { s.params with timerMode := .hostScheduled } }

/-- One tick with no key down, preceded by `n` decrements under HOST_SCHEDULED. -/
def plainTick (n : Nat) : HostTick := { decrements := n, input := TickInput.idle }

theorem test_meets_DecodeOfEncodeIsTheInstruction :
    Instr.wellFormed (.drw 1 2 0) = true ∧ Instr.wellFormed (.drw 1 2 15) = true ∧
    Instr.wellFormed (.ldVxMem 15) = true := by decide

theorem test_meets_EncodeOfDecodeIsTheWord :
    decode 0xDFFF = .ok (.drw 15 15 15) ∧ decode 0x00EE = .ok .ret := by decide

/-- Each row is selected by its own pattern and by its pattern with every field full: these meet the premise of
`RowDecodes` in every statement. -/
theorem test_meets_DecodeFollowsTheOpcodeMap_rows :
    ∀ r ∈ opcodeRows, r.selects r.pattern ∧ r.selects (r.pattern ||| ~~~r.mask) := by decide

theorem test_meets_DecodeFollowsTheOpcodeMap_invalid :
    (∀ r ∈ opcodeRows, (0x5121 : Word) &&& r.mask ≠ r.pattern) ∧
    (∀ r ∈ opcodeRows, (0x0000 : Word) &&& r.mask ≠ r.pattern) ∧
    (∀ r ∈ opcodeRows, (0xFFFF : Word) &&& r.mask ≠ r.pattern) := by decide

theorem test_meets_SourceScenarioSkipsOnNotEqual :
    ((core 0x452A).setV 5 2).running ∧ (core 0x452A).pc = 0x200 ∧ (core 0x452A).mem.read 0x200 = 0x45 ∧
    (core 0x452A).mem.read 0x201 = 0x2A ∧ ((core 0x452A).setV 5 2).getV 5 = 2 ∧
    ((core 0x452A).setV 5 0x2A).getV 5 = 0x2A := by decide

theorem test_meets_StepRunsTheDecodedInstruction :
    (storeFetchWord 0x6A01 (atPc 0xFFE State.reset)).running ∧
    (storeFetchWord 0x6A01 (atPc 0xFFE State.reset)).pc.toNat ≤ 0xFFE ∧
    decodeBytes ((storeFetchWord 0x6A01 (atPc 0xFFE State.reset)).mem.read 0xFFE)
      ((storeFetchWord 0x6A01 (atPc 0xFFE State.reset)).mem.read 0xFFF) = .ok (.ldVxKk 10 1) := by decide

theorem test_meets_TickFollowsItsOrder :
    ¬ halted.running ∧ (atPc 0xFFF State.reset).running ∧ 0xFFE < (atPc 0xFFF State.reset).pc.toNat ∧
    (atPc 0xFFE State.reset).running ∧ (atPc 0xFFE State.reset).pc.toNat ≤ 0xFFE ∧
    decode (fetchWord (atPc 0xFFE State.reset)) = .error .invalid0nnn ∧
    decode (fetchWord (storeFetchWord 0x6A01 (atPc 0xFFE State.reset))) = .ok (.ldVxKk 10 1) := by decide

theorem test_meets_FetchOutOfRangeFaults :
    0xFFE < (atPc 0xFFF State.reset).pc.toNat ∧ 0xFFE < (atPc 0xFFFF State.reset).pc.toNat ∧
    (atPc 0xFFFF State.reset).running := by decide

theorem test_meets_HaltedCoreIsFrozen : ¬ halted.running ∧ runsTo 0 halted halted ∧ runsTo 2 halted halted :=
  ⟨by decide, rfl, rfl⟩

theorem test_meets_ChangedFlagReportsTheTick_drawn :
    ∃ t, tick TickInput.idle (core 0x00E0) = .next t ∧ t.chg = true ∧ (core 0x00E0).running :=
  ⟨_, rfl, rfl, rfl⟩

theorem test_meets_ChangedFlagReportsTheTick_faulted :
    ∃ t, tick TickInput.idle (core 0x00EE) = .next t ∧ t.flt ≠ none := ⟨_, rfl, by decide⟩

theorem test_meets_FaultCommitsNothing :
    ∃ t, tick TickInput.idle ((core 0xF133).setI 0x1FF) = .next t ∧ t.flt ≠ none ∧
      ((core 0xF133).setI 0x1FF).running := ⟨_, rfl, by decide, rfl⟩

theorem test_meets_FaultRecordsFollowTheTable_flow :
    (∃ t r, tick TickInput.idle (atPc 0xFFF State.reset) = .next t ∧ t.flt = some r ∧
      r.code = .fetchOutOfRange) ∧
    (∃ t r, tick TickInput.idle (core 0x5121) = .next t ∧ t.flt = some r ∧ r.code = .decodeError) ∧
    (∃ t r, tick TickInput.idle (depth 16 (core 0x2300)) = .next t ∧ t.flt = some r ∧
      r.code = .stackOverflow) ∧
    (∃ t r, tick TickInput.idle (core 0x00EE) = .next t ∧ t.flt = some r ∧ r.code = .stackUnderflow) :=
  ⟨⟨_, _, rfl, rfl, rfl⟩, ⟨_, _, rfl, rfl, rfl⟩, ⟨_, _, rfl, rfl, rfl⟩, ⟨_, _, rfl, rfl, rfl⟩⟩

theorem test_meets_FaultRecordsFollowTheTable_data :
    (∃ t r, tick TickInput.idle ((core 0xF133).setI 0xFFE) = .next t ∧ t.flt = some r ∧
      r.code = .memOutOfRange ∧ r.addr = 0x1000) ∧
    (∃ t r, tick TickInput.idle ((core 0xF133).setI 0xFFFF) = .next t ∧ t.flt = some r ∧
      r.code = .memOutOfRange ∧ r.addr = 0xFFFF) ∧
    (∃ t r, tick TickInput.idle ((core 0xF133).setI 0x1FF) = .next t ∧ t.flt = some r ∧
      r.code = .reservedWrite) ∧
    (∃ t r, tick TickInput.idle ((core 0xE19E).setV 1 0x10) = .next t ∧ t.flt = some r ∧
      r.code = .keyOutOfRange) :=
  ⟨⟨_, _, rfl, rfl, rfl, rfl⟩, ⟨_, _, rfl, rfl, rfl, rfl⟩, ⟨_, _, rfl, rfl, rfl⟩, ⟨_, _, rfl, rfl, rfl⟩⟩

theorem test_meets_PcAdvancesOnlyByTheOutcome :
    (∃ t, exec (.addIVx 1) (atPc 0xFFFF State.reset) = .next t ∧ t.flt = (atPc 0xFFFF State.reset).flt) ∧
    (∃ t, exec (.seVxKk 3 0) State.reset = .next t ∧ t.flt = State.reset.flt ∧ t.pc = 0x204) ∧
    (∃ t, exec (.ldVxK 3) State.reset = .next t ∧ t.flt = State.reset.flt ∧ t.pc = 0x200) ∧
    State.reset.running ∧ jumping (.seVxKk 3 0) = false :=
  ⟨⟨_, rfl, rfl⟩, ⟨_, rfl, rfl, rfl⟩, ⟨_, rfl, rfl, rfl⟩, rfl, rfl⟩

theorem test_meets_RetResumesAfterTheCall :
    State.reset.sp.val = 0 ∧ (depth 1 State.reset).sp.val = (0 : Fin 16).val + 1 ∧
    (depth 16 State.reset).sp.val = (15 : Fin 16).val + 1 := by decide

theorem test_meets_CallPushesItsOwnAddress :
    (depth 16 State.reset).sp.val = 16 ∧ State.reset.sp.val = (0 : Fin 16).val ∧
    (depth 15 State.reset).sp.val = (15 : Fin 16).val := by decide

/-- What ran between made a nested call, which wrote the next slot. -/
theorem test_meets_CallThenReturnContinuesAfterTheCall :
    ∃ t u w, (depth 14 State.reset).sp.val = (14 : Fin 16).val ∧
      exec (.call 0x300) (depth 14 State.reset) = .next t ∧ u.sp = t.sp ∧ u.stack.get 14 = t.stack.get 14 ∧
      u.stack.get 15 ≠ t.stack.get 15 ∧ exec .ret u = .next w :=
  ⟨_, ((((depth 14 State.reset).push 0x200 (by decide)).push 0x300 (by decide)).pop), _,
    rfl, rfl, rfl, rfl, by decide, rfl⟩

theorem test_meets_SkipsCompareWithAnImmediate :
    (State.reset.getV 3).toNat = (0 : Byte).toNat ∧ ((State.reset.setV 3 0xFF).getV 3).toNat ≠ (0 : Byte).toNat := by
  decide

theorem test_meets_SkipsCompareTwoRegisters :
    (0x5121 : Word) &&& 0xF000 = 0x5000 ∧ (0x5121 : Word) &&& 0xF ≠ 0 ∧ (0x912F : Word) &&& 0xF000 = 0x9000 ∧
    (0x912F : Word) &&& 0xF ≠ 0 ∧ (State.reset.getV 1).toNat = (State.reset.getV 2).toNat ∧
    ((State.reset.setV 1 1).getV 1).toNat ≠ ((State.reset.setV 1 1).getV 2).toNat := by decide

theorem test_meets_AddImmediateWrapsWithoutFlag : (1 : Reg) ≠ VF := by decide

theorem test_meets_WritesFlag : (1 : Reg) ≠ VF ∧ (2 : Reg) ≠ 1 ∧ (2 : Reg) ≠ VF := by decide

theorem test_meets_ShiftsMoveTheLostBitToVF :
    State.reset.params.shiftSrc = .vy ∧ (shiftsVx State.reset).params.shiftSrc = .vx := by decide

theorem test_meets_RandomByteIsMasked : (0x0F : Byte).getLsbD 4 = false := by decide

theorem test_meets_BcdStoresThreeDigits :
    0xFFF < (State.reset.setI 0xFFE).i.toNat + 2 ∧ (State.reset.setI 0x1FF).i.toNat < 0x200 ∧
    0x200 ≤ (State.reset.setI 0x200).i.toNat ∧ (State.reset.setI 0xFFD).i.toNat + 2 ≤ 0xFFF ∧
    0x200 ≤ (State.reset.setI 0xFFD).i.toNat ∧ (State.reset.setI 0xFFD).mem.wf := by decide

theorem test_meets_StoreRegistersWritesVZeroToVx :
    0xFFF < (State.reset.setI 0xFF1).i.toNat + (15 : Reg).val ∧ (State.reset.setI 0x1FF).i.toNat < 0x200 ∧
    0x200 ≤ (State.reset.setI 0xFF0).i.toNat ∧ (State.reset.setI 0xFF0).i.toNat + (15 : Reg).val ≤ 0xFFF ∧
    (State.reset.setI 0x200).i.toNat + (0 : Reg).val ≤ 0xFFF ∧ State.reset.mem.wf := by decide

theorem test_meets_LoadRegistersReadsVZeroToVx :
    0xFFF < (State.reset.setI 0x1000).i.toNat + (0 : Reg).val ∧
    (State.reset.setI 0xFF0).i.toNat + (15 : Reg).val ≤ 0xFFF ∧ State.reset.i.toNat + (4 : Reg).val ≤ 0xFFF := by
  decide

theorem test_meets_StoredBytesAreFetchedAsWritten :
    ∃ t, exec (.ldMemVx 1) ((regs [(0, 0xAB), (1, 0xCD)]).setI 0xFFE) = .next t ∧
      ((regs [(0, 0xAB), (1, 0xCD)]).setI 0xFFE).mem.wf ∧
      t.flt = ((regs [(0, 0xAB), (1, 0xCD)]).setI 0xFFE).flt ∧
      ((regs [(0, 0xAB), (1, 0xCD)]).setI 0xFFE).running ∧ (1 : Reg).val = (0 : Reg).val + 1 ∧ (1 : Reg) ≤ 1 :=
  ⟨_, rfl, by decide, rfl, rfl, rfl, by decide⟩

theorem test_meets_DrawTogglesTheSprite :
    spriteInMemory 0 (State.reset.setI 0xFFFF) ∧ spriteInMemory 15 (State.reset.setI 0xFF1) ∧
    ¬ spriteInMemory 15 (State.reset.setI 0xFF2) ∧ ¬ spriteInMemory 1 (State.reset.setI 0x1000) ∧
    underSprite 0 0 1 (poke 0x300 [0x80] (State.reset.setI 0x300)) 0 0 ∧
    ¬ underSprite 0 0 0 State.reset 0 0 := by decide

theorem test_meets_DrawTogglesTheSprite_collision :
    (∃ t, exec (.drw 0 0 1) (poke 0x300 [0x80]
        ((State.reset.setDisplay (State.reset.display.toggle 0 0)).setI 0x300)) = .next t ∧
      t.pixel 0 0 = false) ∧
    (State.reset.setDisplay (State.reset.display.toggle 0 0)).pixel 0 0 = true :=
  ⟨⟨_, rfl, by decide⟩, by decide⟩

theorem test_meets_DrawingTwiceRestoresTheDisplay :
    ∃ t w, exec (.drw 1 2 1) (poke 0x300 [0xC0] ((regs [(1, 63), (2, 31)]).setI 0x300)) = .next t ∧
      exec (.drw 1 2 1) t = .next w ∧ t.i = 0x300 ∧ t.getV 1 = 63 ∧ t.getV 2 = 31 ∧
      t.mem = (poke 0x300 [0xC0] State.reset).mem ∧ t.getV VF = 0 ∧ w.getV VF = 1 :=
  ⟨_, _, rfl, rfl, rfl, rfl, rfl, rfl, by decide, by decide⟩

theorem test_meets_ReadOutsReportTheState :
    (core 0x00E0).running ∧ ∃ t, tick TickInput.idle (core 0x00E0) = .next t ∧ refreshScreen t = true :=
  ⟨rfl, _, rfl, rfl⟩

theorem test_meets_KeySkipsTestTheTicksKeys :
    0x0F < ((State.reset.setV 1 0x10).getV 1).toNat ∧
    ((State.reset.setV 1 0x0F).getV 1).toNat = (15 : Key).val ∧
    (State.reset.withKeys (keys [15]).keys).input.keys.get 15 = true ∧ State.reset.input.keys.get 15 = false := by
  decide

theorem test_meets_KeyWaitStoresAPressedKey :
    (∀ k, State.reset.input.keys.get k = false) ∧
    (∃ k, (State.reset.withKeys (keys [3, 9]).keys).input.keys.get k = true) ∧
    (State.reset.withKeys (keys [3, 9]).keys).input.keys.get 9 = true := by decide

theorem test_meets_TimersCountDownToZero : State.reset.running ∧ ¬ halted.running := by decide

theorem test_meets_TimerModesFixTheCadence :
    (scheduled [plainTick 3] State.reset).running ∧
    (scheduled [plainTick 3] State.reset).params.timerMode = .coupled ∧
    (hostScheduled (scheduled [plainTick 0, plainTick 3] State.reset)).params.timerMode = .hostScheduled ∧
    (hostScheduled (scheduled [plainTick 0, plainTick 3] State.reset)).pending =
      { decrements := 0, input := TickInput.idle } :: [plainTick 3] ∧
    (hostScheduled State.reset).running ∧ (hostScheduled State.reset).params.timerMode = .hostScheduled ∧
    (hostScheduled State.reset).pending = [] := by decide

theorem test_meets_CoupledDelayReadsOneLess :
    ∃ s t u, s.running ∧ s.params.timerMode = .coupled ∧ s.pc.toNat ≤ 0xFFE ∧
      decode (fetchWord s) = .ok (.ldDtVx 0) ∧ step s = .next t ∧ t.pc.toNat ≤ 0xFFE ∧
      decode (fetchWord t) = .ok (.ldVxDt 1) ∧ step t = .next u ∧ s.getV 0 = 1 ∧ u.getV 1 = 0 :=
  ⟨scheduled [plainTick 0, plainTick 0] (poke 0x200 [0xF0, 0x15, 0xF1, 0x07] (regs [(0, 1)])), _, _,
    rfl, rfl, by decide, by decide, rfl, by decide, by decide, rfl, by decide, by decide⟩

theorem test_meets_RegistersChangeOnlyAsDestinationOrFlag :
    (∃ t, exec (.ldVxKk 1 5) State.reset = .next t ∧ t.getV 1 ≠ State.reset.getV 1) ∧
    (∃ t, exec (.shlVxVy 1 2) (regs [(2, 0x80)]) = .next t ∧ t.getV VF ≠ (regs [(2, 0x80)]).getV VF) :=
  ⟨⟨_, rfl, by decide⟩, ⟨_, rfl, by decide⟩⟩

theorem test_meets_IndexIsWrittenOnlyByItsFive :
    ∃ t, exec (.ldMemVx 0) (State.reset.setI 0x300) = .next t ∧ t.i ≠ (State.reset.setI 0x300).i :=
  ⟨_, rfl, by decide⟩

theorem test_meets_StackIsTouchedOnlyByCallAndReturn :
    usesStack (.jp 0x200) = false ∧ (∃ t, exec (.jp 0x200) State.reset = .next t) ∧
    ∃ t, exec .ret (depth 1 State.reset) = .next t := ⟨rfl, ⟨_, rfl⟩, ⟨_, rfl⟩⟩

theorem test_meets_DevicesAreUsedOnlyByTheirInstructions :
    (∃ t, exec (.ldDtVx 0) (regs [(0, 7)]) = .next t ∧ t.dt ≠ (regs [(0, 7)]).dt) ∧
    (∃ t, exec (.ldStVx 0) (regs [(0, 7)]) = .next t ∧ t.st ≠ (regs [(0, 7)]).st) ∧
    (∃ t, exec (.drw 0 0 1) (poke 0 [0x80] State.reset) = .next t ∧ t.pixel 0 0 ≠ State.reset.pixel 0 0) ∧
    drawing (.ldStVx 0) = false ∧ (∀ x, Instr.cls ≠ .ldVxDt x) ∧ (∀ x, Instr.cls ≠ .ldDtVx x) ∧ ∀ x, Instr.cls ≠ .ldStVx x :=
  ⟨⟨_, rfl, by decide⟩, ⟨_, rfl, by decide⟩, ⟨_, rfl, by decide⟩, rfl, by decide, by decide, by decide⟩

theorem test_meets_StoresStayInTheirBytes :
    ∃ t, exec (.ldBVx 0) ((regs [(0, 255)]).setI 0xFFD) = .next t ∧
      t.mem.read 0xFFF ≠ ((regs [(0, 255)]).setI 0xFFD).mem.read 0xFFF := ⟨_, rfl, by decide⟩

theorem test_meets_InputsAreReadOnlyByTheirInstructions :
    readsKeys (.rnd 1 2) = false ∧ (∀ x kk, Instr.skp 1 ≠ .rnd x kk) ∧
    (State.reset.withExit true).input.exit = true ∧
    ∀ k, (State.reset.withExit true).input.keys.get k = false := by
  refine ⟨rfl, ?_, rfl, by decide⟩
  intro x kk h
  cases h

theorem test_meets_NoInputIsKeptBetweenTicks : State.reset.running := by decide

theorem test_meets_ConstructGivesTheResetValues :
    ∃ t, t = construct (halted.setV 1 2) ∧ t.getV 1 = 0 ∧ t.flt = none := ⟨_, rfl, rfl, rfl⟩

theorem test_meets_FontLoadsAtZero :
    State.reset.started = false ∧ (beginTick TickInput.idle State.reset).started = true ∧
    State.reset.mem.wf := by decide

theorem test_meets_RomLoadsAtProgramBase :
    3584 < (List.replicate 3585 (0xAB : Byte)).length ∧ (List.replicate 3584 (0xAB : Byte)).length ≤ 3584 ∧
    State.reset.started = false ∧ (beginTick TickInput.idle State.reset).started = true ∧ State.reset.mem.wf :=
  ⟨by rw [List.length_replicate]; decide, by simp only [List.length_replicate, le_refl], rfl, rfl,
    by decide⟩

theorem test_meets_RomLoadsAtProgramBase_tick :
    State.reset.running ∧ ∃ t, tick TickInput.idle State.reset = .next t := ⟨rfl, _, rfl⟩

theorem test_meets_BootLaysOutMemory :
    (List.replicate 3584 (0xAB : Byte)).length ≤ 3584 ∧ ([] : List Byte).length ≤ 3584 :=
  ⟨by simp only [List.length_replicate, le_refl], by decide⟩

theorem test_meets_FontAddressPointsAtTheGlyph :
    ∃ s' t u, loadFont (regs [(1, 15)]) = .next s' ∧ exec (.ldFVx 1) s' = .next t ∧
      exec (.ldVxMem 4) t = .next u ∧ (regs [(1, 15)]).mem.wf ∧
      ((regs [(1, 15)]).getV 1).toNat = (15 : Fin 16).val ∧ (4 : Reg).val = (4 : Fin 5).val :=
  ⟨_, _, _, rfl, rfl, rfl, by decide, by decide, rfl⟩

theorem test_meets_EveryStepKeepsTheInvariant :
    ∃ s t, s.Inv ∧ step s = .next t ∧ t.getV 10 = 0x7B :=
  ⟨scheduled [plainTick 0] (core 0x6A7B), _,
    ⟨by decide, by decide, fun r h => nomatch (show (none : Option FaultRecord) = some r from h)⟩, rfl, by decide⟩

theorem test_meets_NoRunChangesTheReservedArea :
    ∃ t, runsTo 2 (scheduled [plainTick 0, plainTick 0] (poke 0x200 [0x61, 0x05, 0x71, 0x01] State.reset)) t ∧
      t.getV 1 = 6 := ⟨_, rfl, by decide⟩

end Sys2Proof.Tests
end

section
/-! PROOFS. What an instruction and a tick may write, said once (`Commits`, `commits_or_records`,
`tick_commits_or_records`), and from it the statements of 10_state.md on the registers, CHG and the fetch. -/

namespace Sys2Proof.Machine

/-! ### What an instruction that ends without a fault may write -/

/-- From `s` to `t` each piece of the core's state is kept, unless `i` is an instruction that writes it (10_state.md R20
to R32); CHG becomes true when `i` draws. -/
structure Commits (i : Instr) (s t : State) : Prop where
  regs : ∀ r, destination i r = false → ¬ (writesFlag i = true ∧ r = VF) → t.getV r = s.getV r
  index : writesIndex i = false → t.i = s.i
  stack : usesStack i = false → SameStack s t
  dt : (∀ x, i ≠ .ldDtVx x) → t.dt = s.dt
  st : (∀ x, i ≠ .ldStVx x) → t.st = s.st
  display : drawing i = false → t.display = s.display
  chg : t.chg = (s.chg || drawing i)
  mem : storedBytes i = 0 → t.mem = s.mem
  flt : t.flt = s.flt

/-- `Fx65` leaves the registers above `V[x]` alone (42_index_memory.md R185). -/
theorem loadRegisters_get_above (m : Memory) (a : Nat) (v : Vector Byte 16) {x r : Reg} (h : x < r) :
    (loadRegisters m a v (x.val + 1)).get r = v.get r := by
  have hr : ¬ r.val < x.val + 1 := Nat.not_lt.2 h
  rw [loadRegisters_get, if_neg hr]

/-- The instructions with a fault (`RET`, `CALL`, `DRW`, the key skips and the memory transfers) divide as the shared
operation they end in does, `Fx0A` on whether a key is drawn; the others have one outcome. -/
theorem exec_commits_or_raises (i : Instr) (s : State) :
    (∃ t, exec i s = .next t ∧ Commits i s t) ∨
      ∃ code addr value, exec i s = raise code (encode i) addr value s := by
  cases i with
  | ret =>
    simp only [exec, execRet]
    split
    · exact .inr ⟨_, _, _, rfl⟩
    · exact .inl ⟨_, rfl, by constructor <;> simp [usesStack, drawing]⟩
  | call nnn =>
    simp only [exec, execCall]
    split
    · exact .inl ⟨_, rfl, by constructor <;> simp [usesStack, drawing]⟩
    · exact .inr ⟨_, _, _, rfl⟩
  | drw x y n =>
    simp only [exec, execDrw]
    split
    · exact .inr ⟨_, _, _, rfl⟩
    · exact .inl ⟨_, rfl, by constructor <;> simp +contextual [SameStack, writesFlag, drawing]⟩
  | skp x =>
    rcases skipOnKey_cases (encode (.skp x)) x true s with ⟨k, _, h⟩ | ⟨h, _⟩
    · exact .inl ⟨_, h, by constructor <;> simp [SameStack, drawing]⟩
    · exact .inr ⟨_, _, _, h⟩
  | sknp x =>
    rcases skipOnKey_cases (encode (.sknp x)) x false s with ⟨k, _, h⟩ | ⟨h, _⟩
    · exact .inl ⟨_, h, by constructor <;> simp [SameStack, drawing]⟩
    · exact .inr ⟨_, _, _, h⟩
  | ldVxK x =>
    refine .inl ⟨_, rfl, ?_⟩
    split <;> constructor <;> simp +contextual [SameStack, destination, drawing]
  | ldBVx x =>
    rcases storeAtI_cases (encode (.ldBVx x)) (decimalDigits (s.getV x)) s.i s with ⟨h, _⟩ | ⟨h, _⟩ | ⟨h, _⟩
    · exact .inl ⟨_, h, by constructor <;> simp [SameStack, storedBytes, drawing]⟩
    · exact .inr ⟨_, _, _, h⟩
    · exact .inr ⟨_, _, _, h⟩
  | ldMemVx x =>
    rcases storeAtI_cases (encode (.ldMemVx x)) (registersUpTo x s) (indexAfter s.i x) s with
      ⟨h, _⟩ | ⟨h, _⟩ | ⟨h, _⟩
    · exact .inl ⟨_, h, by constructor <;> simp [SameStack, storedBytes, writesIndex, drawing]⟩
    · exact .inr ⟨_, _, _, h⟩
    · exact .inr ⟨_, _, _, h⟩
  | ldVxMem x =>
    simp only [exec, execLdVxMem]
    split
    · exact .inr ⟨_, _, _, rfl⟩
    · refine .inl ⟨_, rfl, ?_⟩
      constructor <;>
        simp +contextual [SameStack, destination, writesIndex, drawing, State.getV, loadRegisters_get_above]
  | _ =>
    refine .inl ⟨_, rfl, ?_⟩
    constructor <;> simp +contextual [SameStack, destination, writesFlag, writesIndex, drawing]

/-- An instruction's next state: its writes committed, or its start with only FLT written (60_exceptions.md R243). -/
theorem commits_or_records {i : Instr} {s t : State} (h : exec i s = .next t) :
    Commits i s t ∨ ∃ code addr value, t = s.record code (encode i) addr value := by
  rcases exec_commits_or_raises i s with ⟨u, hu, hc⟩ | ⟨code, addr, value, hr⟩
  · rw [hu] at h
    cases h
    exact .inl hc
  · rw [hr, raise_eq] at h
    cases h
    exact .inr ⟨code, addr, value, rfl⟩

/-- A running core's tick commits the decoded instruction, or takes one fault on the state that began the tick. -/
theorem tick_commits_or_records {inp : TickInput} {s t : State} (hrun : s.running) (h : tick inp s = .next t) :
    (∃ i, decode (fetchWord s) = .ok i ∧ Commits i (beginTick inp s) t) ∨
      ∃ code op addr value, t = (beginTick inp s).record code op addr value := by
  rcases tick_cases inp s hrun with ⟨ht, _⟩ | ⟨_, ⟨e, _, ht⟩ | ⟨i, hd, ht⟩⟩
  · rw [ht, raise_eq] at h
    cases h
    exact .inr ⟨_, _, _, _, rfl⟩
  · rw [ht, raise_eq] at h
    cases h
    exact .inr ⟨_, _, _, _, rfl⟩
  · rw [ht] at h
    rcases commits_or_records h with hc | ⟨code, addr, value, hr⟩
    · exact .inl ⟨i, hd, hc⟩
    · exact .inr ⟨code, _, addr, value, hr⟩

/-! ### The statements -/

/-- Settles O12: a tick that commits `i` leaves FLT clear and sets CHG exactly when `i` draws; a tick that faults leaves
CHG as the start of the tick cleared it. -/
theorem changedFlagReportsTheTick : Obligations.ChangedFlagReportsTheTick := by
  unfold Obligations.ChangedFlagReportsTheTick
  intro inp s t hrun h
  rcases tick_commits_or_records hrun h with ⟨i, hd, hc⟩ | ⟨code, op, addr, value, rfl⟩
  · have hflt : t.flt = none := hc.flt.trans hrun
    have hchg : t.chg = drawing i := by simpa using hc.chg
    simp [hflt, hchg, hd]
  · simp

/-- Settles O46: a committed instruction keeps the registers it does not name, and a fault keeps them all. -/
theorem registersChangeOnlyAsDestinationOrFlag : Obligations.RegistersChangeOnlyAsDestinationOrFlag := by
  unfold Obligations.RegistersChangeOnlyAsDestinationOrFlag
  intro i s t r h hne
  rcases commits_or_records h with hc | ⟨code, addr, value, rfl⟩
  · by_contra hno
    rw [not_or, Bool.not_eq_true] at hno
    exact hne (hc.regs r hno.1 hno.2)
  · exact absurd rfl hne

/-- Settles O10: of the cases of a tick only the fetch fault admits such a pc, and its record does not depend on
memory. -/
theorem fetchOutOfRangeFaults : Obligations.FetchOutOfRangeFaults := by
  unfold Obligations.FetchOutOfRangeFaults
  intro inp s m hrun hpc
  rcases tick_cases inp (s.setMem m) hrun with ⟨ht, _⟩ | ⟨hle, _⟩
  · exact ⟨_, _, ht, rfl, rfl, rfl, rfl⟩
  · exact absurd hpc (Nat.not_lt.2 hle)

end Sys2Proof.Machine
end

section
/-! PROOFS. The bytes of the fetched word, memory after the boot order, and the statements of 20_memory.md on them. -/

namespace Sys2Proof.Machine

/-! ### The two bytes of a word (20_memory.md R72) -/

theorem wordOfBytes_toNat (hi lo : Byte) : (wordOfBytes hi lo).toNat = 256 * hi.toNat + lo.toNat := by
  rw [wordOfBytes, BitVec.toNat_append, ← Nat.shiftLeft_add_eq_or_of_lt lo.isLt, Nat.shiftLeft_eq, Nat.mul_comm]

@[simp] theorem highByte_wordOfBytes (hi lo : Byte) : highByte (wordOfBytes hi lo) = hi :=
  BitVec.extractLsb'_append_eq_left

@[simp] theorem lowByte_wordOfBytes (hi lo : Byte) : lowByte (wordOfBytes hi lo) = lo :=
  BitVec.extractLsb'_append_eq_right

/-! ### The registers and the display after construct() (10_state.md R36) -/

@[simp] theorem getV_construct (s : State) (r : Reg) : (construct s).getV r = 0 :=
  Vector.getElem_replicate r.isLt

@[simp] theorem stack_get_construct (s : State) (k : Fin 16) : (construct s).stack.get k = 0 :=
  Vector.getElem_replicate k.isLt

@[simp] theorem pixel_construct (s : State) (px : Fin 64) (py : Fin 32) : (construct s).pixel px py = false :=
  Display.pixel_blank px py

/-! ### Memory after the boot order (20_memory.md R85) -/

/-- Memory as `load_font()` leaves it after `construct()`. -/
def fontMemory (f : Font) : Memory := Memory.writeBytes [] 0 (Font.bytes f)

/-- Memory as `load_rom(bytes)` leaves it after them. -/
def bootMemory (f : Font) (bytes : List Byte) : Memory := (fontMemory f).writeBytes programBase bytes

/-- The boot order writes memory only: the rest of the core is as `construct()` leaves it. -/
theorem boot_eq (s : State) {bytes : List Byte} (h : bytes.length ≤ 3584) :
    boot bytes s = .next ((construct s).setMem (bootMemory s.params.font bytes), .ok) := by
  have hfont : loadFont (construct s) = .next ((construct s).setMem (fontMemory s.params.font)) := rfl
  rw [boot, hfont]
  rcases loadRom_cases bytes ((construct s).setMem (fontMemory s.params.font)) with
    ⟨hstarted, _⟩ | ⟨_, hlong, _⟩ | ⟨_, _, hload⟩
  · cases hstarted
  · omega
  · exact hload

theorem fontMemory_pairwise (f : Font) : (fontMemory f).Pairwise (fun c d => c.1 < d.1) :=
  Memory.pairwise_writeBytes _ List.Pairwise.nil 0

theorem read_fontMemory_glyph (f : Font) (d : Fin 16) (r : Fin 5) :
    (fontMemory f).read (5 * d.val + r.val) = (f.get d).get r := by
  have hlt : 5 * d.val + r.val < (Font.bytes f).length := by rw [Font.length_bytes]; omega
  rw [fontMemory, Memory.read_writeBytes _ List.Pairwise.nil, dif_pos ⟨Nat.zero_le _, hlt⟩]
  exact Font.getElem_bytes f d r hlt

theorem read_fontMemory_above (f : Font) {a : Nat} (h : 0x50 ≤ a) : (fontMemory f).read a = 0 :=
  Memory.read_writeBytes_outside (Font.bytes f) [] (.inr (by rw [Font.length_bytes]; omega))

/-- Outside the ROM's bytes memory is as the font's load left it. -/
theorem read_bootMemory_outside (f : Font) {bytes : List Byte} {a : Nat}
    (h : a < 0x200 ∨ 0x200 + bytes.length ≤ a) : (bootMemory f bytes).read a = (fontMemory f).read a :=
  Memory.read_writeBytes_outside bytes (fontMemory f) h

theorem read_bootMemory_rom (f : Font) {bytes : List Byte} {k : Nat} (h : k < bytes.length) :
    (bootMemory f bytes).read (0x200 + k) = bytes[k] := by
  rw [bootMemory, programBase, Memory.read_writeBytes bytes (fontMemory_pairwise f)]
  simp [h]

/-! ### The statements -/

/-- Settles O56: the boot order ends with `bootMemory` in the constructed core, and each address lies in the font, in
the ROM or outside both. -/
theorem bootLaysOutMemory : Obligations.BootLaysOutMemory := by
  unfold Obligations.BootLaysOutMemory
  intro bytes s hlen
  refine ⟨_, boot_eq s hlen, ?font, ?gap, ?rom, ?tail, rfl, rfl, stack_get_construct s, getV_construct s, rfl, rfl, rfl,
    pixel_construct s, rfl, rfl⟩
  case font =>
    intro d r
    rw [State.setMem_mem, read_bootMemory_outside _ (.inl (by omega)), read_fontMemory_glyph]
  case gap =>
    intro a hlow hhigh
    rw [State.setMem_mem, read_bootMemory_outside _ (.inl (by omega)), read_fontMemory_above _ hlow]
  case rom =>
    intro k hk
    exact read_bootMemory_rom _ hk
  case tail =>
    intro a ha
    rw [State.setMem_mem, read_bootMemory_outside _ (.inr ha), read_fontMemory_above _ (by omega)]

/-- Settles O7: the fetched word is `wordOfBytes` of the two bytes at `pc`, which puts the first one high. -/
theorem fetchIsBigEndian : Obligations.FetchIsBigEndian := by
  unfold Obligations.FetchIsBigEndian
  intro s
  exact ⟨wordOfBytes_toNat _ _, highByte_wordOfBytes _ _, lowByte_wordOfBytes _ _⟩

end Sys2Proof.Machine
end

section
/-! PROOFS. A step of a running core whose fetched word decodes is `exec` of the instruction (`step_eq_exec`), and the
scenario of 30_encoding.md for the word 0x452A. -/

namespace Sys2Proof.Machine

/-! ### What the host's decrements leave unchanged (60_exceptions.md R250) -/

@[simp] theorem beforeTick_flt (s : State) : (beforeTick s).flt = s.flt := by
  obtain ⟨dt, st, pending, draws, h⟩ := beforeTick_eq s
  rw [h]

@[simp] theorem beforeTick_pc (s : State) : (beforeTick s).pc = s.pc := by
  obtain ⟨dt, st, pending, draws, h⟩ := beforeTick_eq s
  rw [h]

@[simp] theorem beforeTick_mem (s : State) : (beforeTick s).mem = s.mem := by
  obtain ⟨dt, st, pending, draws, h⟩ := beforeTick_eq s
  rw [h]

@[simp] theorem getV_beforeTick (s : State) (r : Reg) : (beforeTick s).getV r = s.getV r := by
  obtain ⟨dt, st, pending, draws, h⟩ := beforeTick_eq s
  rw [h, State.getV, State.getV]

@[simp] theorem fetchWord_beforeTick (s : State) : fetchWord (beforeTick s) = fetchWord s := by
  simp [fetchWord]

/-! ### A step whose fetched word decodes (10_state.md R60) -/

theorem tick_eq_exec {inp : TickInput} {s : State} {i : Instr} (hrun : s.running) (hpc : s.pc.toNat ≤ 0xFFE)
    (hd : decode (fetchWord s) = .ok i) : tick inp s = exec i (beginTick inp s) := by
  rcases tick_cases inp s hrun with ⟨_, hout⟩ | ⟨_, ⟨e, he, _⟩ | ⟨j, hj, ht⟩⟩
  · exact absurd hpc (Nat.not_le.2 hout)
  · rw [hd] at he
    cases he
  · rw [hd] at hj
    cases hj
    exact ht

theorem step_eq_exec {s : State} {i : Instr} (hrun : s.running) (hpc : s.pc.toNat ≤ 0xFFE)
    (hd : decode (fetchWord s) = .ok i) : step s = exec i (beginTick (nextHostTick s).input (beforeTick s)) := by
  rcases step_cases s with ⟨hhalt, _⟩ | ⟨_, hs⟩
  · exact absurd hrun hhalt
  · rw [hs]
    exact tick_eq_exec ((beforeTick_flt s).trans hrun) (by simpa using hpc) (by simpa using hd)

/-- A step that fetches `4xkk` moves the pc by the test of `V[x]` as it was before the step (40_flow.md R134). -/
theorem step_sneVxKk_pc {s : State} {x : Reg} {kk : Byte} (hrun : s.running) (hpc : s.pc.toNat ≤ 0xFFE)
    (hd : decode (fetchWord s) = .ok (.sneVxKk x kk)) :
    ∃ t, step s = .next t ∧ t.pc = if s.getV x = kk then s.pc + 2 else s.pc + 4 := by
  rw [step_eq_exec hrun hpc hd, exec, execSneVxKk, skipIf_eq]
  refine ⟨_, rfl, ?_⟩
  by_cases h : s.getV x = kk <;> simp [h]

/-! ### The statement -/

/-- Settles O6: the two bytes are fetched as 0x452A, so the step is `SNE V5, 0x2A`, whose test decides the pc. -/
theorem sourceScenarioSkipsOnNotEqual : Obligations.SourceScenarioSkipsOnNotEqual := by
  unfold Obligations.SourceScenarioSkipsOnNotEqual
  have hdec : decode 0x452A = .ok (.sneVxKk 5 0x2A) := by decide
  refine ⟨hdec, ?_⟩
  intro s hrun hpc hhi hlo
  have hin : s.pc.toNat ≤ 0xFFE := by rw [hpc]; decide
  have hword : fetchWord s = 0x452A := by
    have haddr : s.pc.toNat = 0x200 := by rw [hpc]; rfl
    rw [fetchWord, haddr, hhi, hlo]
    rfl
  obtain ⟨t, hstep, ht⟩ := step_sneVxKk_pc hrun hin (hword ▸ hdec)
  refine ⟨fun hv => ⟨t, hstep, ?_⟩, fun hv => ⟨t, hstep, ?_⟩⟩
  · rw [ht, hv, hpc]
    decide
  · rw [ht, hv, hpc]
    decide

end Sys2Proof.Machine
end

section
/-! PROOFS. What an outcome that only moves the pc leaves behind (`onlyPc_go`, `skipIf_moves_pc`), and from it the
statements of 40_flow.md on the jump and the skips that compare with an immediate. -/

namespace Sys2Proof.Machine

/-! ### Outcomes that only move the pc (40_flow.md) -/

/-- An outcome taken with nothing written changes the pc alone. -/
theorem onlyPc_go (s : State) (f : Flow) : OnlyPc s (s.go f) := by
  simp [OnlyPc, SameRegs, OnlyRegs, SameMemory, SameStack, SameTimers, SameScreen, SameRest]

@[simp] theorem zextAddr_toNat (nnn : Addr12) : (zextAddr nnn).toNat = nnn.toNat :=
  BitVec.toNat_setWidth_of_le (by decide)

/-- Of the 12-bit targets only 0xFFF has no second byte to fetch (10_state.md R63). -/
theorem addr12_above_fetchable_iff (nnn : Addr12) : 0xFFE < nnn.toNat ↔ nnn = 0xFFF := by
  bv_omega

/-- A skip moves the pc by 4 or by 2 as its test decides, and writes nothing else. -/
theorem skipIf_moves_pc {c : Bool} {p : Prop} (hc : c = true ↔ p) (s : State) :
    ∃ t, skipIf c s = .next t ∧ OnlyPc s t ∧ (p → Skip s t) ∧ (¬ p → Next s t) := by
  refine ⟨_, skipIf_eq c s, onlyPc_go s _, ?holds, ?fails⟩
  case holds =>
    intro hp
    rw [if_pos (hc.2 hp)]
    exact BitVec.toNat_add s.pc 4
  case fails =>
    intro hp
    rw [if_neg (mt hc.1 hp)]
    exact BitVec.toNat_add s.pc 2

theorem skipIf_beq_moves_pc (a b : Byte) (s : State) :
    ∃ t, skipIf (a == b) s = .next t ∧ OnlyPc s t ∧
      (a.toNat = b.toNat → Skip s t) ∧ (a.toNat ≠ b.toNat → Next s t) :=
  skipIf_moves_pc (beq_iff_eq.trans BitVec.toNat_inj.symm) s

theorem skipIf_bne_moves_pc (a b : Byte) (s : State) :
    ∃ t, skipIf (a != b) s = .next t ∧ OnlyPc s t ∧
      (a.toNat ≠ b.toNat → Skip s t) ∧ (a.toNat = b.toNat → Next s t) := by
  have hne : (a != b) = true ↔ a.toNat ≠ b.toNat := bne_iff_ne.trans BitVec.toNat_inj.not.symm
  obtain ⟨t, hexec, honly, hskip, hnext⟩ := skipIf_moves_pc hne s
  exact ⟨t, hexec, honly, hskip, fun h => hnext (not_not_intro h)⟩

/-! ### The statements -/

/-- Settles O18: the jump's outcome writes its zero-extended address to the pc. -/
theorem jumpSetsThePc : Obligations.JumpSetsThePc := by
  unfold Obligations.JumpSetsThePc
  intro nnn s
  have hpc : (s.go (.jump (zextAddr nnn))).pc.toNat = nnn.toNat := zextAddr_toNat nnn
  refine ⟨_, finish_eq _ s, hpc, ?_, onlyPc_go s _⟩
  rw [hpc]
  exact addr12_above_fetchable_iff nnn

/-- Settles O21: `SE` is `skipIf` on equality of `V[x]` and the immediate, `SNE` on inequality. -/
theorem skipsCompareWithAnImmediate : Obligations.SkipsCompareWithAnImmediate := by
  unfold Obligations.SkipsCompareWithAnImmediate
  intro x kk s
  exact ⟨skipIf_beq_moves_pc (s.getV x) kk s, skipIf_bne_moves_pc (s.getV x) kk s⟩

end Sys2Proof.Machine
end

section
/-! PROOFS. What the shared outcome `result` of the instructions with no flag writes (`result_writes`), and from it the
statements of 41_alu.md on the loads and the immediate addition. -/

namespace Sys2Proof.Machine

/-! ### A result with no flag (41_alu.md R151 to R153) -/

/-- `result` writes its byte to `V[x]` and moves the pc to the next instruction, and writes nothing else. -/
theorem result_writes (x : Reg) (b : Byte) (s : State) : ∃ t, result x b s = .next t ∧ Writes x b s t := by
  refine ⟨_, finish_eq .next (s.setV x b), ?dest, ?others, ?pc, ?rest⟩
  case dest => simp
  case others =>
    intro r hr
    simp [hr]
  case pc => exact BitVec.toNat_add s.pc 2
  case rest => simp [OnlyRegs, SameMemory, SameStack, SameTimers, SameScreen, SameRest]

/-! ### The statements -/

/-- Settles O24: each load is `result` with the immediate, or with the source register. -/
theorem loadsWriteTheRegister : Obligations.LoadsWriteTheRegister := by
  unfold Obligations.LoadsWriteTheRegister
  exact ⟨fun x kk s => result_writes x kk s, fun x y s => result_writes x (s.getV y) s⟩

/-- Settles O25: the addition is `result` with the 8-bit sum, so VF changes only as the destination. -/
theorem addImmediateWrapsWithoutFlag : Obligations.AddImmediateWrapsWithoutFlag := by
  unfold Obligations.AddImmediateWrapsWithoutFlag
  intro x kk s
  obtain ⟨t, hexec, hdest, hothers, hnext, hrest⟩ := result_writes x (s.getV x + kk) s
  have hsum : (t.getV x).toNat = ((s.getV x).toNat + kk.toNat) % 256 := by rw [hdest, BitVec.toNat_add]
  exact ⟨t, hexec, hsum, fun hx => hothers VF hx.symm, hothers, hnext, hrest⟩

end Sys2Proof.Machine
end

section
/-! PROOFS. What an outcome that only writes the index register leaves behind (`setI_sets_index`), the words of the opcode
map's rows A and F, and from them the statement of 42_index_memory.md on the instructions that set the index. -/

namespace Sys2Proof.Machine

/-! ### Words whose major opcode is A or F (30_encoding.md R103) -/

theorem decode_of_majorA {op : Word} (h : fieldMajor op = 0xA) : decode op = .ok (.ldI (fieldNnn op)) := by
  rw [decode, h]
  rfl

theorem decode_of_majorF {op : Word} (h : fieldMajor op = 0xF) : decode op = decodeGroupF op := by
  rw [decode, h]
  rfl

/-- Mask 0xF0FF leaves the decoder of group F only the low byte of the pattern to test. -/
theorem decode_of_maskF {op p : Word} (hp : fieldMajor p = 0xF) (h : op &&& 0xF0FF = p) :
    decode op = decodeGroupF op ∧ fieldKk op = fieldKk p :=
  ⟨decode_of_majorF ((major_of_mask (by decide) h).trans hp), byte_of_mask (by decide) h⟩

theorem rowDecodes_ldI : RowDecodes 0xF000 0xA000 (fun w => .ldI (fieldNnn w)) :=
  fun _ h => decode_of_majorA (major_of_mask (by decide) h)

theorem rowDecodes_addIVx : RowDecodes 0xF0FF 0xF01E (fun w => .addIVx (fieldX w)) := by
  intro op h
  obtain ⟨hgroup, hkk⟩ := decode_of_maskF (by decide) h
  rw [hgroup, decodeGroupF, hkk]
  rfl

theorem rowDecodes_ldFVx : RowDecodes 0xF0FF 0xF029 (fun w => .ldFVx (fieldX w)) := by
  intro op h
  obtain ⟨hgroup, hkk⟩ := decode_of_maskF (by decide) h
  rw [hgroup, decodeGroupF, hkk]
  rfl

/-! ### The values written to the index (42_index_memory.md R181, R182) -/

@[simp] theorem zextByte_toNat (b : Byte) : (zextByte b).toNat = b.toNat :=
  BitVec.toNat_setWidth_of_le (by decide)

theorem indexPlus_toNat (i : Word) (b : Byte) : (indexPlus i b).toNat = (i.toNat + b.toNat) % 65536 := by
  rw [indexPlus, BitVec.toNat_add, zextByte_toNat]

/-- Five times a byte is at most 0x4FB, so the product of the 16-bit words does not wrap. -/
theorem glyphAddress_toNat (b : Byte) : (glyphAddress b).toNat = b.toNat * 5 := by
  have hb : b.toNat < 256 := b.isLt
  rw [glyphAddress, BitVec.toNat_mul, zextByte_toNat]
  exact Nat.mod_eq_of_lt (show b.toNat * 5 < 65536 by omega)

/-! ### Outcomes that only write the index (42_index_memory.md section 1) -/

/-- Writing `I` and moving to the next instruction writes nothing else. -/
theorem setI_sets_index {w : Word} {n : Nat} (hw : w.toNat = n) (s : State) :
    ∃ t, finish .next (s.setI w) = .next t ∧ t.i.toNat = n ∧ Next s t ∧ OnlyIndex s t := by
  refine ⟨_, finish_eq .next (s.setI w), hw, BitVec.toNat_add s.pc 2, ?frame⟩
  case frame => simp [OnlyIndex, SameRegs, SameMemory, SameStack, SameTimers, SameScreen, SameRest]

/-! ### The statement -/

/-- Settles O31: each of the three is the outcome that writes `I` alone, with the 16-bit value that the rule gives. -/
theorem indexInstructionsSetI : Obligations.IndexInstructionsSetI := by
  unfold Obligations.IndexInstructionsSetI
  refine ⟨rowDecodes_ldI, rowDecodes_addIVx, rowDecodes_ldFVx, ?load, fun x s => ⟨?add, ?glyph⟩⟩
  case load => exact fun nnn s => setI_sets_index (zextAddr_toNat nnn) s
  case add => exact setI_sets_index (indexPlus_toNat s.i (s.getV x)) s
  case glyph => exact setI_sets_index (glyphAddress_toNat (s.getV x)) s

end Sys2Proof.Machine
end

section
/-! PROOFS. What `CLS` leaves behind; the display and the hit of a whole sprite in terms of `underSprite`
(`drawSprite_spec`), the outcome of `Dxyn` with the sprite in memory (`exec_drw_inMemory`), and from them the statements
of 43_display.md on `CLS` and on drawing twice. -/

namespace Sys2Proof.Machine

/-! ### The sprite of `Dxyn` (43_display.md R201 to R203) -/

/-- The rows drawn from the sprite's origin lie over the pixels that R201 names. -/
theorem inRows_spriteRows_iff (x y : Reg) (n : Nat) (s : State) (px : Fin 64) (py : Fin 32) :
    inRows (originX x s) (originY y s) (spriteRows n s) px py ↔ underSprite x y n s px py := by
  have hlen : (spriteRows n s).length = n := Memory.length_readBytes s.mem (baseAddress s) n
  have hrow : ∀ r (h : r < (spriteRows n s).length), (spriteRows n s)[r] = s.mem.read (s.i.toNat + r) :=
    Memory.getElem_readBytes s.mem (baseAddress s) n
  constructor
  · rintro ⟨r, hr, hpy, c, hc, hpx, hbit⟩
    exact ⟨r, hlen ▸ hr, c, hc, hpx.symm, hpy.symm, hrow r hr ▸ hbit⟩
  · rintro ⟨r, hr, c, hc, hpx, hpy, hbit⟩
    have hr' : r < (spriteRows n s).length := hlen.symm ▸ hr
    exact ⟨r, hr', hpy.symm, c, hc, hpx.symm, (hrow r hr').symm ▸ hbit⟩

/-- Drawing inverts exactly the pixels under the sprite, and hits when one of them was set (43_display.md R202). A sprite
of more than 32 rows would reach a pixel twice. -/
theorem drawSprite_spec (x y : Reg) {n : Nat} (hn : n ≤ 32) (s : State) :
    (∀ px py, (drawSprite x y n s).display.pixel px py =
      (s.pixel px py).xor (decide (underSprite x y n s px py))) ∧
    ((drawSprite x y n s).hit = true ↔ ∃ px py, underSprite x y n s px py ∧ s.pixel px py = true) := by
  have hlen : (spriteRows n s).length ≤ 32 := (Memory.length_readBytes s.mem (baseAddress s) n).trans_le hn
  obtain ⟨hpixel, hhit⟩ := drawRows_spec (originX x s) (originY y s) (spriteRows n s) ⟨s.display, false⟩ hlen
  constructor
  · intro px py
    rw [drawSprite, hpixel, decide_eq_decide.2 (inRows_spriteRows_iff x y n s px py)]
  · rw [drawSprite, hhit]
    simp only [Bool.false_eq_true, false_or, inRows_spriteRows_iff]

/-- The pixels under a sprite depend on its origin, its address and its bytes only. -/
theorem underSprite_congr {x y : Reg} {s u : State} (hx : u.getV x = s.getV x) (hy : u.getV y = s.getV y)
    (hi : u.i = s.i) (hmem : SameMemory s u) (n : Nat) (px : Fin 64) (py : Fin 32) :
    underSprite x y n u px py ↔ underSprite x y n s px py := by
  simp only [underSprite, hx, hy, hi, hmem _]

/-! ### The outcome of `Dxyn` (43_display.md R202, R204) -/

theorem collisionFlag_eq_one_iff (hit : Bool) : collisionFlag hit = 1 ↔ hit = true := by
  cases hit <;> decide

theorem spriteInMemory_congr {s u : State} (hi : u.i = s.i) (n : Nat) : spriteInMemory n u ↔ spriteInMemory n s := by
  rw [spriteInMemory, spriteInMemory, hi]

/-- With the sprite in memory the range check passes, and `Dxyn` commits the drawn display and the collision. -/
theorem exec_drw_inMemory (x y : Reg) {n : Nat} {s : State} (h : spriteInMemory n s) :
    exec (.drw x y n) s = finish .next
      ((s.setDisplay (drawSprite x y n s).display).setV VF (collisionFlag (drawSprite x y n s).hit)) := by
  rcases rangeFault_cases (baseAddress s) n with ⟨hnone, _⟩ | ⟨_, hpos, hout⟩
  · simp only [exec, execDrw, hnone]
  · rw [baseAddress, memSize] at hout
    omega

/-- What a completed `Dxyn` leaves in the display and in VF. -/
theorem drw_next {x y : Reg} {n : Nat} {s t : State} (hmem : spriteInMemory n s)
    (h : exec (.drw x y n) s = .next t) :
    t.display = (drawSprite x y n s).display ∧ t.getV VF = collisionFlag (drawSprite x y n s).hit := by
  rw [exec_drw_inMemory x y hmem, finish_eq] at h
  cases h
  exact ⟨rfl, by simp⟩

/-! ### The statements -/

/-- Settles O36: `CLS` writes the blank display, and with it CHG, and moves the pc to the next instruction. -/
theorem clearScreenClearsEveryPixel : Obligations.ClearScreenClearsEveryPixel := by
  unfold Obligations.ClearScreenClearsEveryPixel
  intro s
  refine ⟨_, finish_eq .next (s.setDisplay Display.blank), Display.pixel_blank, rfl, rfl, ?pc, ?frame⟩
  case pc => exact BitVec.toNat_add s.pc 2
  case frame => simp [SameRegs, SameMemory, SameStack, SameTimers, SameRest]

/-- Settles O38: both draws invert the same pixels, so the second undoes the first; a pixel under the sprite is set
before the second draw exactly when it was unset before the first. -/
theorem drawingTwiceRestoresTheDisplay : Obligations.DrawingTwiceRestoresTheDisplay := by
  unfold Obligations.DrawingTwiceRestoresTheDisplay
  intro x y n s t u w hn hmem hfirst hdisplay hi hsame hx hy hsecond
  obtain ⟨ht, _⟩ := drw_next hmem hfirst
  obtain ⟨hw, hflag⟩ := drw_next ((spriteInMemory_congr hi n).2 hmem) hsecond
  have hn' : n ≤ 32 := hn.trans (by decide)
  obtain ⟨hpixelS, _⟩ := drawSprite_spec x y hn' s
  obtain ⟨hpixelU, hhitU⟩ := drawSprite_spec x y hn' u
  have hunder := underSprite_congr hx hy hi hsame n
  have hbetween : ∀ px py, u.pixel px py = (s.pixel px py).xor (decide (underSprite x y n s px py)) := by
    intro px py
    rw [State.pixel, hdisplay, ht, hpixelS]
  constructor
  · apply Display.ext_pixel
    intro px py
    rw [hw, hpixelU, hbetween, decide_eq_decide.2 (hunder px py), Bool.xor_assoc, Bool.xor_self, Bool.xor_false]
  · rw [hflag, collisionFlag_eq_one_iff, hhitU]
    refine exists_congr fun px => exists_congr fun py => ?_
    rw [hunder px py, hbetween]
    refine and_congr_right fun hpx => ?_
    rw [decide_eq_true hpx, Bool.xor_true, Bool.not_eq_true']

end Sys2Proof.Machine
end

section
/-! PROOFS. What an outcome that only writes one timer leaves behind (`setDt_sets_delay`, `setSt_sets_sound`), and from
it the statement of 44_keys_timers.md on the instructions that copy to and from the timers. -/

namespace Sys2Proof.Machine

/-! ### Outcomes that only write a timer (44_keys_timers.md R225, R226) -/

/-- Writing DT and moving to the next instruction writes nothing else. -/
theorem setDt_sets_delay (b : Byte) (s : State) :
    ∃ t, finish .next (s.setDt b) = .next t ∧ t.dt = b ∧ t.st = s.st ∧ t.i = s.i ∧ Next s t ∧
      SameRegs s t ∧ SameMemory s t ∧ SameStack s t ∧ SameScreen s t ∧ SameRest s t := by
  refine ⟨_, finish_eq .next (s.setDt b), rfl, rfl, rfl, BitVec.toNat_add s.pc 2, ?frame⟩
  case frame => simp [SameRegs, SameMemory, SameStack, SameScreen, SameRest]

/-- Writing ST and moving to the next instruction writes nothing else. -/
theorem setSt_sets_sound (b : Byte) (s : State) :
    ∃ t, finish .next (s.setSt b) = .next t ∧ t.st = b ∧ t.dt = s.dt ∧ t.i = s.i ∧ Next s t ∧
      SameRegs s t ∧ SameMemory s t ∧ SameStack s t ∧ SameScreen s t ∧ SameRest s t := by
  refine ⟨_, finish_eq .next (s.setSt b), rfl, rfl, rfl, BitVec.toNat_add s.pc 2, ?frame⟩
  case frame => simp [SameRegs, SameMemory, SameStack, SameScreen, SameRest]

/-! ### The statement -/

/-- Settles O42: reading DT is `result` with DT as its byte; the other two are the outcomes that write one timer alone. -/
theorem timerInstructionsCopy : Obligations.TimerInstructionsCopy := by
  unfold Obligations.TimerInstructionsCopy
  intro x s
  exact ⟨result_writes x s.dt s, setDt_sets_delay (s.getV x) s, setSt_sets_sound (s.getV x) s⟩

end Sys2Proof.Machine
end

section
/-! PROOFS. The two ticks of a running core that end before the execution, by a fetch fault and by a decode fault, beside
`tick_eq_exec` for the tick that executes; from the three the statement on the order of a tick's checks. -/

namespace Sys2Proof.Machine

/-! ### Ticks that fault before the execution (10_state.md R60, 60_exceptions.md R242) -/

theorem tick_eq_fetchFault {inp : TickInput} {s : State} (hrun : s.running) (hpc : 0xFFE < s.pc.toNat) :
    tick inp s = raise .fetchOutOfRange 0 0 0 (beginTick inp s) := by
  rcases tick_cases inp s hrun with ⟨ht, _⟩ | ⟨hin, _⟩
  · exact ht
  · exact absurd hpc (Nat.not_lt.2 hin)

theorem tick_eq_decodeFault {inp : TickInput} {s : State} {e : DecodeError} (hrun : s.running)
    (hpc : s.pc.toNat ≤ 0xFFE) (hd : decode (fetchWord s) = .error e) :
    tick inp s = raise .decodeError (fetchWord s) 0 0 (beginTick inp s) := by
  rcases tick_cases inp s hrun with ⟨_, hout⟩ | ⟨_, ⟨_, _, ht⟩ | ⟨i, hi, _⟩⟩
  · exact absurd hpc (Nat.not_le.2 hout)
  · exact ht
  · rw [hd] at hi
    cases hi

/-! ### The statement -/

/-- Settles O9: one equation of the tick for each point at which it can end; a fault raised is FLT written
(`raise_eq`). -/
theorem tickFollowsItsOrder : Obligations.TickFollowsItsOrder := by
  unfold Obligations.TickFollowsItsOrder
  intro inp s
  refine ⟨tick_halted inp s, ?fetchFault, ?decodeFault, ?executes, beginTick_chg inp s⟩
  case fetchFault =>
    intro hrun hpc
    rw [tick_eq_fetchFault hrun hpc, raise_eq, State.record]
  case decodeFault =>
    intro hrun hpc e hd
    rw [tick_eq_decodeFault hrun hpc hd, raise_eq, State.record]
  case executes =>
    intro hrun hpc i hd
    exact tick_eq_exec hrun hpc hd

end Sys2Proof.Machine
end

section
/-! PROOFS. What the host's one decrement under COUPLED leaves in DT (`beforeTick_dt_of_coupled`), what a step that sets
DT and a step that reads it do (`step_ldDtVx`, `step_ldVxDt_of_coupled`), and from them the statement of
70_reset_and_hazards.md on a delay just set. -/

namespace Sys2Proof.Machine

/-! ### The host's side of a step under COUPLED (60_exceptions.md R251) -/

@[simp] theorem beforeTick_params (s : State) : (beforeTick s).params = s.params := by
  obtain ⟨dt, st, pending, draws, h⟩ := beforeTick_eq s
  rw [h]

@[simp] theorem consumeHostTick_flt (s : State) : (consumeHostTick s).flt = s.flt := by
  unfold consumeHostTick
  split <;> rfl

@[simp] theorem consumeHostTick_dt (s : State) : (consumeHostTick s).dt = s.dt := by
  unfold consumeHostTick
  split <;> rfl

theorem decreaseTimers_dt {s : State} (hrun : s.running) : (decreaseTimers s).dt = countDown s.dt := by
  have hlive : s.halted = false := Option.isSome_eq_false_iff.2 (Option.isNone_iff_eq_none.2 hrun)
  simp [decreaseTimers, hlive]

theorem beforeTick_of_coupled {s : State} (hmode : s.params.timerMode = .coupled) :
    beforeTick s = decreaseTimers (consumeHostTick s) := by
  simp only [beforeTick, decrementsBefore, hmode, decreaseTimersBy]

/-- Under COUPLED the tick of a running core finds DT counted down once. -/
theorem beforeTick_dt_of_coupled {s : State} (hrun : s.running) (hmode : s.params.timerMode = .coupled) :
    (beforeTick s).dt = countDown s.dt := by
  have hlive : (consumeHostTick s).running := (consumeHostTick_flt s).trans hrun
  rw [beforeTick_of_coupled hmode, decreaseTimers_dt hlive, consumeHostTick_dt]

/-! ### Steps that set and read the delay timer (44_keys_timers.md R222, R225) -/

/-- A step that executes `Fx15` leaves `V[x]` in DT, whatever the host's decrements did before; the core runs on. -/
theorem step_ldDtVx {x : Reg} {s t : State} (hrun : s.running) (hpc : s.pc.toNat ≤ 0xFFE)
    (hd : decode (fetchWord s) = .ok (.ldDtVx x)) (h : step s = .next t) :
    t.dt = s.getV x ∧ t.running ∧ t.params = s.params := by
  rw [step_eq_exec hrun hpc hd, exec, execLdDtVx, finish_eq] at h
  cases h
  exact ⟨getV_beforeTick s x, (beforeTick_flt s).trans hrun, beforeTick_params s⟩

/-- Under COUPLED a step that executes `Fy07` reads DT as counted down by the host just before. -/
theorem step_ldVxDt_of_coupled {y : Reg} {s t : State} (hrun : s.running) (hmode : s.params.timerMode = .coupled)
    (hpc : s.pc.toNat ≤ 0xFFE) (hd : decode (fetchWord s) = .ok (.ldVxDt y)) (h : step s = .next t) :
    t.getV y = countDown s.dt := by
  rw [step_eq_exec hrun hpc hd, exec, execLdVxDt, finish_eq] at h
  cases h
  simp [beforeTick_dt_of_coupled hrun hmode]

/-! ### The statement -/

/-- Settles O45: the first step leaves `V[x]` in DT, and the host's decrement of the second step comes before its read.
The premise `V[x] > 0` is not needed: at zero the timer saturates. -/
theorem coupledDelayReadsOneLess : Obligations.CoupledDelayReadsOneLess := by
  unfold Obligations.CoupledDelayReadsOneLess
  intro x y s t u hrun hmode hpcS hset hstepS hpcT hread hstepT _
  obtain ⟨hdt, hrunT, hparams⟩ := step_ldDtVx hrun hpcS hset hstepS
  have hmodeT : t.params.timerMode = .coupled := by rw [hparams, hmode]
  rw [step_ldVxDt_of_coupled hrunT hmodeT hpcT hread hstepT, hdt, countDown_toNat]

end Sys2Proof.Machine
end

section
/-! PROOFS. The decoder and the encoder are inverse (30_encoding.md R103, R105), the words that each group of the decoder
accepts (`isWordOf_of_decodeGroup8` and its kin), the rows of the opcode map (`opcodeRows_decode`) and the classes of
invalid words (`decode_eq_error_iff`). -/

namespace Sys2Proof.Machine

/-! ### Encode, then decode -/

/-- Settles O1: by the format of the word, whose fields are read back (`fieldX_formatXkk` and its kin). -/
theorem decodeOfEncodeIsTheInstruction : Obligations.DecodeOfEncodeIsTheInstruction := by
  unfold Obligations.DecodeOfEncodeIsTheInstruction
  intro i hwf
  cases i with
  | cls | ret => rfl
  | jp | call | ldI | jpV0 => simp [encode, decode]
  | seVxKk | sneVxKk | ldVxKk | addVxKk | rnd => simp [encode, decode]
  | seVxVy | sneVxVy => simp [encode, decode]
  | ldVxVy | orVxVy | andVxVy | xorVxVy | addVxVy | subVxVy | subnVxVy | shrVxVy | shlVxVy =>
    simp [encode, decode, decodeGroup8]
  | skp | sknp => simp [encode, decode, decodeGroupE]
  | ldVxDt | ldVxK | ldDtVx | ldStVx | addIVx | ldFVx | ldBVx | ldMemVx | ldVxMem =>
    simp [encode, decode, decodeGroupF]
  | drw x y n =>
    have hn : n < 16 := Nat.lt_succ_of_le (of_decide_eq_true hwf)
    simp [encode, decode, Nat.mod_eq_of_lt hn]

/-! ### Decode, then encode -/

theorem formatNnn_of_major {op : Word} {m : Nibble} (h : fieldMajor op = m) : formatNnn m (fieldNnn op) = op :=
  h ▸ formatNnn_fields op

theorem formatXkk_of_major {op : Word} {m : Nibble} (h : fieldMajor op = m) :
    formatXkk m (fieldX op) (fieldKk op) = op :=
  h ▸ formatXkk_fields op

theorem formatXkk_of_byte {op : Word} {m : Nibble} {kk : Byte} (h : fieldMajor op = m) (hkk : fieldKk op = kk) :
    formatXkk m (fieldX op) kk = op :=
  hkk ▸ formatXkk_of_major h

theorem formatXyn_of_nibble {op : Word} {m n : Nibble} (h : fieldMajor op = m) (hn : fieldN op = n) :
    formatXyn m (fieldX op) (fieldY op) n = op :=
  h ▸ hn ▸ formatXyn_fields op

/-- `i` is well formed and `op` is its word. -/
abbrev IsWordOf (op : Word) (i : Instr) : Prop := encode i = op ∧ i.wellFormed = true

theorem isWordOf_of_decodeGroup0 {op : Word} {i : Instr} (h : decodeGroup0 op = .ok i) : IsWordOf op i := by
  unfold decodeGroup0 at h
  split_ifs at h with hcls hret
  · cases h; exact ⟨hcls.symm, rfl⟩
  · cases h; exact ⟨hret.symm, rfl⟩

theorem isWordOf_of_decodeGroup8 {op : Word} {i : Instr} (hm : fieldMajor op = 0x8) (h : decodeGroup8 op = .ok i) :
    IsWordOf op i := by
  unfold decodeGroup8 at h
  split at h <;> cases h
  all_goals
    rename_i hn
    exact ⟨formatXyn_of_nibble hm (BitVec.eq_of_toNat_eq hn), rfl⟩

theorem isWordOf_of_decodeGroupE {op : Word} {i : Instr} (hm : fieldMajor op = 0xE) (h : decodeGroupE op = .ok i) :
    IsWordOf op i := by
  unfold decodeGroupE at h
  split_ifs at h with hkk hkk <;> cases h <;> exact ⟨formatXkk_of_byte hm hkk, rfl⟩

theorem isWordOf_of_decodeGroupF {op : Word} {i : Instr} (hm : fieldMajor op = 0xF) (h : decodeGroupF op = .ok i) :
    IsWordOf op i := by
  unfold decodeGroupF at h
  split_ifs at h with hkk hkk hkk hkk hkk hkk hkk hkk hkk <;> cases h <;>
    exact ⟨formatXkk_of_byte hm hkk, rfl⟩

/-- The decoder's last arm is major opcode F. -/
theorem fieldMajor_eq_F {op : Word} (h : ∀ k < 15, (fieldMajor op).toNat ≠ k) : fieldMajor op = 0xF := by
  apply BitVec.eq_of_toNat_eq
  have hlt := (fieldMajor op).isLt
  by_contra hne
  exact h (fieldMajor op).toNat (by simp at hne; omega) rfl

/-- Settles O2: each arm of the decoder reads the fields that the encoder lays out again, with the arm's fixed bits. Case
`h_1` is major opcode 0, `h_2` major opcode 1, and so on to `h_16`, major opcode F. -/
theorem encodeOfDecodeIsTheWord : Obligations.EncodeOfDecodeIsTheWord := by
  unfold Obligations.EncodeOfDecodeIsTheWord
  intro op i h
  have major : ∀ {k : Nat}, (fieldMajor op).toNat = k → fieldMajor op = BitVec.ofNat 4 k := fun hk => by simp [← hk]
  unfold decode at h
  split at h
  case h_1 => exact isWordOf_of_decodeGroup0 h
  case h_2 hm | h_3 hm | h_11 hm | h_12 hm => cases h; exact ⟨formatNnn_of_major (major hm), rfl⟩
  case h_4 hm | h_5 hm | h_7 hm | h_8 hm | h_13 hm => cases h; exact ⟨formatXkk_of_major (major hm), rfl⟩
  case h_6 hm | h_10 hm =>
    split_ifs at h with hn
    cases h
    exact ⟨formatXyn_of_nibble (major hm) hn, rfl⟩
  case h_9 hm => exact isWordOf_of_decodeGroup8 (major hm) h
  case h_14 hm =>
    cases h
    refine ⟨formatXyn_of_nibble (major hm) (by simp), ?_⟩
    exact decide_eq_true (Nat.le_of_lt_succ (fieldN op).isLt)
  case h_15 hm => exact isWordOf_of_decodeGroupE (major hm) h
  case h_16 => exact isWordOf_of_decodeGroupF (fieldMajor_eq_F fun k hk => by interval_cases k <;> assumption) h

/-! ### The opcode map (30_encoding.md R103) -/

/-- A selected word agrees with the row's pattern in every field that the row's mask covers. -/
theorem fields_of_selects {r : OpcodeRow} {op : Word} (hr : r ∈ opcodeRows) (h : r.selects op) :
    fieldMajor op = fieldMajor r.pattern ∧ (fieldN r.mask = 0xF → fieldN op = fieldN r.pattern) ∧
      (fieldKk r.mask = 0xFF → fieldKk op = fieldKk r.pattern) := by
  have hmask : ∀ q ∈ opcodeRows, fieldMajor q.mask = 0xF := by decide
  exact ⟨major_of_mask (hmask r hr) h, fun hn => nibble_of_mask hn h, fun hkk => byte_of_mask hkk h⟩

/-- The rows in the order of R103: of group 0, of majors 1 to 4, 5 and 9, 6 and 7, of group 8, of majors A to D, of
group E and of group F. -/
theorem opcodeRows_decode : ∀ r ∈ opcodeRows, RowDecodes r.mask r.pattern r.build := by
  intro r hr op h
  obtain ⟨hmajor, hn, hkk⟩ := fields_of_selects hr h
  rw [decode, hmajor]
  simp only [opcodeRows, opcodeRowsFlowAlu, opcodeRowsMemoryDevices, List.cons_append, List.nil_append,
    List.mem_cons, List.not_mem_nil, or_false] at hr
  rcases hr with rfl | rfl | rfl | rfl | rfl | rfl | rfl | rfl | rfl | rfl | rfl | rfl | rfl | rfl | rfl | rfl | rfl |
    rfl | rfl | rfl | rfl | rfl | rfl | rfl | rfl | rfl | rfl | rfl | rfl | rfl | rfl | rfl | rfl | rfl
  iterate 2 next =>
    have hop : op = op &&& 0xFFFF := (BitVec.and_allOnes (x := op)).symm
    rw [hop, h]
    rfl
  iterate 4 next => rfl
  iterate 2 next => exact if_pos (hn rfl)
  iterate 2 next => rfl
  iterate 9 next =>
    change decodeGroup8 op = _
    rw [decodeGroup8, hn rfl]
    rfl
  iterate 4 next => rfl
  iterate 2 next =>
    change decodeGroupE op = _
    rw [decodeGroupE, hkk rfl]
    rfl
  iterate 9 next =>
    change decodeGroupF op = _
    rw [decodeGroupF, hkk rfl]
    rfl

/-- The `k`-th row of the opcode map, counted from 0. -/
theorem rowDecodes_of_getElem? (k : Nat) {mask pattern : Word} {build : Word → Instr}
    (h : opcodeRows[k]? = some ⟨pattern, mask, build⟩) : RowDecodes mask pattern build :=
  opcodeRows_decode _ (List.mem_of_getElem? h)

theorem encode_in_row (i : Instr) : Laws.WordInRow.Statement i := by
  cases i with
  | cls | ret => rfl
  | jp | call | ldI | jpV0 => exact Laws.WordInRow.nnn_mask _ _
  | seVxKk | sneVxKk | ldVxKk | addVxKk | rnd => exact Laws.WordInRow.xkk_mask _ _ _
  | seVxVy | sneVxVy | ldVxVy | orVxVy | andVxVy | xorVxVy | addVxVy | subVxVy | subnVxVy | shrVxVy | shlVxVy =>
    exact Laws.WordInRow.xy_mask _ _ _ _
  | drw => exact Laws.WordInRow.xyn_mask _ _ _ _
  | skp | sknp | ldVxDt | ldVxK | ldDtVx | ldStVx | addIVx | ldFVx | ldBVx | ldMemVx | ldVxMem =>
    exact Laws.WordInRow.x_mask _ _ _

theorem row_mem_opcodeRows (i : Instr) : Laws.WordInRow.row i ∈ opcodeRows.map fun r => (r.mask, r.pattern) := by
  cases i <;> simp [Laws.WordInRow.row, opcodeRows, opcodeRowsFlowAlu, opcodeRowsMemoryDevices]

/-- A word that decodes is selected by a row. -/
theorem selected_of_decode {op : Word} {i : Instr} (h : decode op = .ok i) : ∃ r ∈ opcodeRows, r.selects op := by
  obtain ⟨r, hr, hrow⟩ := List.mem_map.1 (row_mem_opcodeRows i)
  have hin : encode i &&& (Laws.WordInRow.row i).1 = (Laws.WordInRow.row i).2 := encode_in_row i
  rw [(encodeOfDecodeIsTheWord op i h).1, ← hrow] at hin
  exact ⟨r, hr, hin⟩

/-- Two rows whose patterns differ in a bit that both masks test select no word together. -/
theorem not_selects_both {r q : OpcodeRow} (h : r.pattern &&& q.mask ≠ q.pattern &&& r.mask) (op : Word) :
    ¬ (op &&& r.mask = r.pattern ∧ op &&& q.mask = q.pattern) := by
  rintro ⟨hr, hq⟩
  apply h
  rw [← hr, ← hq, BitVec.and_assoc, BitVec.and_assoc, BitVec.and_comm r.mask]

/-- Settles O3: each row's arm is reached through the fields that its mask tests (`opcodeRows_decode`); a word that
decodes is an encoding, which its instruction's row selects. -/
theorem decodeFollowsTheOpcodeMap : Obligations.DecodeFollowsTheOpcodeMap := by
  unfold Obligations.DecodeFollowsTheOpcodeMap
  refine ⟨rfl, opcodeRows_decode, ?unselected, ?disjoint⟩
  case unselected =>
    intro op hno
    cases h : decode op with
    | error e => exact ⟨e, rfl⟩
    | ok i =>
      obtain ⟨r, hr, hsel⟩ := selected_of_decode h
      exact absurd hsel (hno r hr)
  case disjoint =>
    have hbits : opcodeRows.Pairwise fun r q => r.pattern &&& q.mask ≠ q.pattern &&& r.mask := by decide
    exact hbits.imp not_selects_both

/-! ### The invalid words (30_encoding.md R107) -/

theorem decodeGroup0_eq_error_iff (op : Word) (e : DecodeError) :
    decodeGroup0 op = .error e ↔ e = .invalid0nnn ∧ op ≠ 0x00E0 ∧ op ≠ 0x00EE := by
  unfold decodeGroup0
  split_ifs <;> simp_all [eq_comm]

theorem decodeGroup8_eq_error_iff (op : Word) (e : DecodeError) :
    decodeGroup8 op = .error e ↔
      e = .invalid8xyn ∧ (fieldN op).toNat ∈ [0x8, 0x9, 0xA, 0xB, 0xC, 0xD, 0xF] := by
  have hlt : (fieldN op).toNat < 16 := (fieldN op).isLt
  unfold decodeGroup8
  generalize (fieldN op).toNat = n at hlt
  interval_cases n <;> simp [eq_comm]

theorem decodeGroupE_eq_error_iff (op : Word) (e : DecodeError) :
    decodeGroupE op = .error e ↔ e = .invalidExkk ∧ (fieldKk op).toNat ∉ [0x9E, 0xA1] := by
  unfold decodeGroupE
  split_ifs <;> simp_all [eq_comm, ← BitVec.toNat_inj]

theorem decodeGroupF_eq_error_iff (op : Word) (e : DecodeError) :
    decodeGroupF op = .error e ↔ e = .invalidFxkk ∧
      (fieldKk op).toNat ∉ [0x07, 0x0A, 0x15, 0x18, 0x1E, 0x29, 0x33, 0x55, 0x65] := by
  unfold decodeGroupF
  split_ifs <;> simp_all [eq_comm, ← BitVec.toNat_inj]

/-- Only six major opcodes have invalid words. -/
theorem decode_eq_error_iff (op : Word) (e : DecodeError) :
    decode op = .error e ↔
      ((fieldMajor op).toNat = 0x0 ∧ decodeGroup0 op = .error e) ∨
      ((fieldMajor op).toNat = 0x5 ∧ fieldN op ≠ 0 ∧ e = .invalid5xyn) ∨
      ((fieldMajor op).toNat = 0x8 ∧ decodeGroup8 op = .error e) ∨
      ((fieldMajor op).toNat = 0x9 ∧ fieldN op ≠ 0 ∧ e = .invalid9xyn) ∨
      ((fieldMajor op).toNat = 0xE ∧ decodeGroupE op = .error e) ∨
      ((fieldMajor op).toNat = 0xF ∧ decodeGroupF op = .error e) := by
  have hlt : (fieldMajor op).toNat < 16 := (fieldMajor op).isLt
  unfold decode
  generalize (fieldMajor op).toNat = m at hlt
  interval_cases m <;> simp
  -- majors 5 and 9 are left: their arms test the low nibble
  all_goals split_ifs with hn <;> simp [hn, @eq_comm _ e]

theorem fieldN_eq_zero_iff (op : Word) : fieldN op = 0#4 ↔ op.toNat % 16 = 0 := by
  rw [← fieldN_toNat, ← BitVec.toNat_inj]
  rfl

/-- Settles O4: of the six disjuncts of `decode_eq_error_iff` each name leaves the one that answers it. -/
theorem invalidWordsAreTheSixClasses : Obligations.InvalidWordsAreTheSixClasses := by
  unfold Obligations.InvalidWordsAreTheSixClasses
  intro op
  simp [decode_eq_error_iff, decodeGroup0_eq_error_iff, decodeGroup8_eq_error_iff, decodeGroupE_eq_error_iff,
    decodeGroupF_eq_error_iff, fieldN_eq_zero_iff, fieldN_toNat, fieldKk_toNat, fieldMajor_toNat]

/-- Of the words `5xyn` and `9xyn` only those with low nibble 0 are valid. -/
theorem decode_error_of_lowNibble {op : Word} (hm : op &&& 0xF000 = 0x5000 ∨ op &&& 0xF000 = 0x9000)
    (hn : op &&& 0xF ≠ 0) : ∃ e, decode op = .error e := by
  have hnibble : fieldN op ≠ 0 := by
    intro h0
    apply hn
    apply BitVec.eq_of_toNat_eq
    rw [BitVec.toNat_and]
    exact (Nat.and_two_pow_sub_one_eq_mod op.toNat 4).trans ((fieldN_eq_zero_iff op).1 h0)
  rcases hm with h | h
  · refine ⟨.invalid5xyn, (decode_eq_error_iff op _).2 (.inr (.inl ⟨?_, hnibble, rfl⟩))⟩
    exact congrArg BitVec.toNat (major_of_mask (by decide) h)
  · refine ⟨.invalid9xyn, (decode_eq_error_iff op _).2 (.inr (.inr (.inr (.inl ⟨?_, hnibble, rfl⟩))))⟩
    exact congrArg BitVec.toNat (major_of_mask (by decide) h)

/-- Settles O5: each word is evaluated. -/
theorem wordsDecodeToTheirInstructions : Obligations.WordsDecodeToTheirInstructions := by
  unfold Obligations.WordsDecodeToTheirInstructions
  decide

end Sys2Proof.Machine
end

section
/-! PROOFS. Which faults an instruction may raise and under which condition (`Raises`, `exec_completes_or_raises`), what
it may store (`exec_stores`) and what a tick may do (`tick_next`); from them the statements on the bytes an instruction
stores, on the reserved area over every run and on the invariant over every step. -/

namespace Sys2Proof.Machine

/-! ### The faults of the instructions (60_exceptions.md R241) -/

/-- In state `s` instruction `i` meets the condition of the fault `code`, whose record holds `addr` and `value`. -/
inductive Raises : Instr → State → FaultCode → Nat → Byte → Prop where
  | overflow {nnn : Addr12} {s : State} (hsp : s.sp.val = 16) : Raises (.call nnn) s .stackOverflow 0 0
  | underflow {s : State} (hsp : s.sp.val = 0) : Raises .ret s .stackUnderflow 0 0
  | range {i : Instr} {s : State} (hpos : 0 < touchedBytes i) (hout : 0xFFF < s.i.toNat + touchedBytes i - 1) :
    Raises i s .memOutOfRange (max s.i.toNat 0x1000) 0
  | reserved {i : Instr} {s : State} (hpos : 0 < storedBytes i) (hlow : s.i.toNat < 0x200) :
    Raises i s .reservedWrite s.i.toNat 0
  | key {i : Instr} {s : State} {x : Reg} (hi : i = .skp x ∨ i = .sknp x) (hv : 0x0F < (s.getV x).toNat) :
    Raises i s .keyOutOfRange 0 (s.getV x)

/-- `r` ends `i` without a fault, or is a fault that `i` raises in `s` with its own word. -/
def CompletesOrRaises (i : Instr) (s : State) (r : Result) : Prop :=
  (∃ t, r = .next t ∧ t.flt = s.flt) ∨
    ∃ code addr value, Raises i s code addr value ∧ r = raise code (encode i) addr value s

/-- The range check of what an instruction touches passes, or answers the address that its fault records. -/
theorem rangeFault_raises (i : Instr) (s : State) :
    rangeFault (baseAddress s) (touchedBytes i) = none ∨
      ∃ addr, rangeFault (baseAddress s) (touchedBytes i) = some addr ∧ Raises i s .memOutOfRange addr 0 := by
  rcases rangeFault_cases (baseAddress s) (touchedBytes i) with ⟨h, _⟩ | ⟨h, hpos, hout⟩
  · exact .inl h
  · rw [baseAddress, memSize] at hout
    exact .inr ⟨_, h, .range hpos (by omega)⟩

/-- The two stores take the faults of a store of their bytes. -/
theorem storeAtI_completes_or_raises {i : Instr} {bytes : List Byte} (index : Word) (s : State)
    (hlen : bytes.length = storedBytes i) (hpos : 0 < storedBytes i) (htouch : touchedBytes i = storedBytes i) :
    CompletesOrRaises i s (storeAtI (encode i) bytes index s) := by
  rcases storeAtI_cases (encode i) bytes index s with ⟨h, _⟩ | ⟨h, hout⟩ | ⟨h, hlow, _⟩
  · exact .inl ⟨_, h, rfl⟩
  · rw [baseAddress, hlen, memSize] at hout
    exact .inr ⟨_, _, _, .range (by omega) (by omega), h⟩
  · exact .inr ⟨_, _, _, .reserved hpos hlow, h⟩

/-- A key skip takes the fault of a key operand above 0x0F. -/
theorem skipOnKey_completes_or_raises {i : Instr} {x : Reg} (hi : i = .skp x ∨ i = .sknp x) (want : Bool)
    (s : State) :
    CompletesOrRaises i s (skipOnKey (encode i) x want s) := by
  rcases skipOnKey_cases (encode i) x want s with ⟨k, _, h⟩ | ⟨h, hv⟩
  · exact .inl ⟨_, h, rfl⟩
  · exact .inr ⟨_, _, _, .key hi hv, h⟩

/-- `RET` and `CALL` divide on the stack pointer, the memory instructions on their checks and the key skips on their
operand; the others only complete. -/
theorem exec_completes_or_raises (i : Instr) (s : State) : CompletesOrRaises i s (exec i s) := by
  cases i with
  | ret =>
    simp only [exec, execRet]
    split
    case isTrue hsp => exact .inr ⟨_, _, _, .underflow hsp, rfl⟩
    case isFalse => exact .inl ⟨_, rfl, rfl⟩
  | call nnn =>
    simp only [exec, execCall]
    split
    case isTrue => exact .inl ⟨_, rfl, rfl⟩
    case isFalse hsp => exact .inr ⟨_, _, _, .overflow (by omega), rfl⟩
  | drw x y n =>
    rcases rangeFault_raises (.drw x y n) s with h | ⟨addr, h, hr⟩ <;> rw [touchedBytes] at h <;> rw [exec, execDrw, h]
    · exact .inl ⟨_, rfl, rfl⟩
    · exact .inr ⟨_, _, _, hr, rfl⟩
  | skp x => exact skipOnKey_completes_or_raises (.inl rfl) true s
  | sknp x => exact skipOnKey_completes_or_raises (.inr rfl) false s
  | ldBVx x => exact storeAtI_completes_or_raises s.i s rfl (Nat.succ_pos 2) rfl
  | ldMemVx x => exact storeAtI_completes_or_raises (indexAfter s.i x) s (length_registersUpTo x s) (Nat.succ_pos _) rfl
  | ldVxMem x =>
    rcases rangeFault_raises (.ldVxMem x) s with h | ⟨addr, h, hr⟩ <;> rw [touchedBytes] at h <;>
      rw [exec, execLdVxMem, h]
    · exact .inl ⟨_, rfl, rfl⟩
    · exact .inr ⟨_, _, _, hr, rfl⟩
  | ldVxK x =>
    refine .inl ⟨_, rfl, ?_⟩
    split <;> rfl
  | _ => exact .inl ⟨_, rfl, rfl⟩

/-- The next state of an instruction: FLT as it was, or the record of a fault whose condition holds. -/
theorem exec_flt {i : Instr} {s t : State} (h : exec i s = .next t) :
    t.flt = s.flt ∨
      ∃ code addr value, Raises i s code addr value ∧ t = s.record code (encode i) addr value := by
  rcases exec_completes_or_raises i s with ⟨u, hu, hflt⟩ | ⟨code, addr, value, hr, hu⟩
  · rw [hu] at h
    cases h
    exact .inl hflt
  · rw [hu, raise_eq] at h
    cases h
    exact .inr ⟨code, addr, value, hr, rfl⟩

/-- A raised fault's record is consistent with the fault table. -/
theorem Raises.consistent {i : Instr} {s : State} {code : FaultCode} {addr : Nat} {value : Byte} {op : Word}
    (h : Raises i s code addr value) (hd : decode op = .ok i) (hpc : s.pc.toNat ≤ 0xFFE) :
    FaultRecord.consistent { code := code, pc := s.pc, op := op, addr := addr, value := value } := by
  cases h with
  | overflow => exact ⟨hpc, ⟨_, hd⟩, rfl, rfl⟩
  | underflow => exact ⟨hpc, hd, rfl, rfl⟩
  | range hpos =>
    have hi := s.i.isLt
    refine ⟨hpc, ?_, Nat.lt_of_lt_of_le (by decide) (Nat.le_max_right _ _), by simp only; omega, rfl⟩
    cases i with
    | drw x y n => exact ⟨x, y, n, .inl hd⟩
    | ldBVx x => exact ⟨x, 0, 0, .inr (.inl hd)⟩
    | ldMemVx x => exact ⟨x, 0, 0, .inr (.inr (.inl hd))⟩
    | ldVxMem x => exact ⟨x, 0, 0, .inr (.inr (.inr hd))⟩
    | _ => cases hpos
  | reserved hpos hlow =>
    refine ⟨hpc, ?_, hlow, rfl⟩
    cases i with
    | ldBVx x => exact ⟨x, .inl hd⟩
    | ldMemVx x => exact ⟨x, .inr hd⟩
    | _ => cases hpos
  | @key _ _ x hi hv =>
    refine ⟨hpc, ⟨x, ?_⟩, rfl, hv⟩
    rcases hi with rfl | rfl
    · exact .inl hd
    · exact .inr hd

/-! ### The stores of the instructions (20_memory.md R75 to R77) -/

/-- From `s` to `t` memory is kept, or `n` bytes were written from `I` up, all in 0x200-0xFFF. -/
def StoresAtI (n : Nat) (s t : State) : Prop :=
  t.mem = s.mem ∨ ∃ bytes : List Byte, bytes.length = n ∧ t.mem = s.mem.writeBytes (baseAddress s) bytes ∧
    programBase ≤ baseAddress s ∧ baseAddress s + n ≤ memSize

theorem storeAtI_stores {op : Word} {bytes : List Byte} {index : Word} {s t : State}
    (h : storeAtI op bytes index s = .next t) : StoresAtI bytes.length s t := by
  rcases storeAtI_cases op bytes index s with ⟨hs, hbase, hin⟩ | ⟨hs, _⟩ | ⟨hs, _⟩ <;> rw [hs] at h <;> cases h
  · rcases hin with rfl | hin
    · exact .inl rfl
    · exact .inr ⟨bytes, rfl, rfl, hbase, hin⟩
  · exact .inl rfl
  · exact .inl rfl

theorem exec_stores {i : Instr} {s t : State} (h : exec i s = .next t) : StoresAtI (storedBytes i) s t := by
  rcases commits_or_records h with hc | ⟨code, addr, value, rfl⟩
  · cases i with
    | ldBVx x => exact storeAtI_stores h
    | ldMemVx x =>
      have hs := storeAtI_stores h
      rwa [length_registersUpTo] at hs
    | _ => exact .inl (hc.mem rfl)
  · exact .inl rfl

theorem StoresAtI.wf {n : Nat} {s t : State} (h : StoresAtI n s t) (hm : s.mem.wf) : t.mem.wf := by
  rcases h with h | ⟨bytes, rfl, h, _, hin⟩
  · rwa [h]
  · rw [h]
    exact Memory.wf_writeBytes bytes hm hin

/-- A byte that a store changes is one of its own. -/
theorem StoresAtI.changed {n : Nat} {s t : State} {a : Nat} (h : StoresAtI n s t)
    (hne : t.mem.read a ≠ s.mem.read a) :
    baseAddress s ≤ a ∧ a < baseAddress s + n ∧ 0x200 ≤ a ∧ a ≤ 0xFFF := by
  rcases h with h | ⟨bytes, rfl, h, hbase, hin⟩
  · exact absurd (by rw [h]) hne
  · have hin' : baseAddress s ≤ a ∧ a < baseAddress s + bytes.length := by
      by_contra hout
      exact hne (by rw [h, Memory.read_writeBytes_outside bytes s.mem (by omega)])
    rw [programBase] at hbase
    rw [memSize] at hin
    omega

/-- Settles O50: an instruction that stores writes its own bytes and no other. -/
theorem storesStayInTheirBytes : Obligations.StoresStayInTheirBytes := by
  unfold Obligations.StoresStayInTheirBytes
  intro i s t a h hne
  exact (exec_stores h).changed hne

/-! ### What a tick may do (10_state.md R60) -/

/-- The next state of a running core's tick: a fetch fault, a decode fault, or what the decoded instruction makes. -/
theorem tick_next {inp : TickInput} {s t : State} (hrun : s.running) (h : tick inp s = .next t) :
    (0xFFE < s.pc.toNat ∧ t = (beginTick inp s).record .fetchOutOfRange 0 0 0) ∨
    (s.pc.toNat ≤ 0xFFE ∧ (∃ e, decode (fetchWord s) = .error e) ∧
      t = (beginTick inp s).record .decodeError (fetchWord s) 0 0) ∨
    (s.pc.toNat ≤ 0xFFE ∧ ∃ i, decode (fetchWord s) = .ok i ∧ exec i (beginTick inp s) = .next t) := by
  rcases tick_cases inp s hrun with ⟨ht, hpc⟩ | ⟨hpc, ⟨e, hd, ht⟩ | ⟨i, hd, ht⟩⟩ <;> rw [ht] at h
  · cases h
    exact .inl ⟨hpc, rfl⟩
  · cases h
    exact .inr (.inl ⟨hpc, ⟨e, hd⟩, rfl⟩)
  · exact .inr (.inr ⟨hpc, i, hd, h⟩)

/-! ### The reserved area (20_memory.md R77) -/

/-- Every byte below 0x200 reads as before. -/
abbrev SameReserved (s t : State) : Prop := ∀ a, a < 0x200 → t.mem.read a = s.mem.read a

theorem exec_keeps_reserved {i : Instr} {s t : State} (h : exec i s = .next t) : SameReserved s t := by
  intro a ha
  by_contra hne
  obtain ⟨_, _, hlow, _⟩ := (exec_stores h).changed hne
  omega

theorem tick_keeps_reserved {inp : TickInput} {s t : State} (hrun : s.running) (h : tick inp s = .next t) :
    SameReserved s t := by
  rcases tick_next hrun h with ⟨_, rfl⟩ | ⟨_, _, rfl⟩ | ⟨_, i, _, hexec⟩
  · exact fun _ _ => rfl
  · exact fun _ _ => rfl
  · exact fun a ha => exec_keeps_reserved hexec a ha

theorem step_keeps_reserved {s t : State} (h : step s = .next t) : SameReserved s t := by
  rcases step_cases s with ⟨_, hs⟩ | ⟨hrun, hs⟩ <;> rw [hs] at h
  · cases h
    exact fun _ _ => rfl
  · have htick := tick_keeps_reserved ((beforeTick_flt s).trans hrun) h
    rwa [SameReserved, beforeTick_mem] at htick

/-- Settles O60: every step keeps the reserved area, and so does every run (`runsTo_keeps`). -/
theorem noRunChangesTheReservedArea : Obligations.NoRunChangesTheReservedArea := by
  unfold Obligations.NoRunChangesTheReservedArea
  intro k s t h
  refine runsTo_keeps SameReserved (fun _ _ _ => rfl) (fun s u t hstep hrest a ha => ?_) h
  rw [hrest a ha, step_keeps_reserved hstep a ha]

/-! ### The invariant (10_state.md R35, 60_exceptions.md R243) -/

/-- Every stack entry in use is an address an instruction was fetched from. -/
abbrev StackFetched (s : State) : Prop := ∀ k : Fin 16, k.val < s.sp.val → (s.stack.get k).toNat ≤ 0xFFE

theorem stackFetched_push {s : State} (h : StackFetched s) (room : s.sp.val < 16) (hpc : s.pc.toNat ≤ 0xFFE) :
    StackFetched (s.push s.pc room) := by
  intro k hk
  rw [State.push_stack, Vector.get_eq_getElem, Vector.getElem_set]
  split
  · exact hpc
  · simp only [State.push_sp] at hk
    exact h k (by omega)

/-- `RET` only lowers the stack pointer, and `CALL` pushes the address it was fetched from. -/
theorem exec_keeps_stackFetched {i : Instr} {s t : State} (hs : StackFetched s) (hpc : s.pc.toNat ≤ 0xFFE)
    (h : exec i s = .next t) : StackFetched t := by
  rcases commits_or_records h with hc | ⟨code, addr, value, rfl⟩
  · cases i with
    | ret =>
      rw [exec, execRet] at h
      split_ifs at h <;> cases h
      · exact hs
      · exact fun k hk => hs k (Nat.lt_of_lt_of_le hk (Nat.sub_le _ _))
    | call nnn =>
      rw [exec, execCall] at h
      split_ifs at h with room <;> cases h
      · exact stackFetched_push hs room hpc
      · exact hs
    | _ =>
      obtain ⟨hsp, hstack⟩ := hc.stack rfl
      rwa [StackFetched, hsp, hstack]
  · exact hs

/-- A recorded fault keeps the invariant when its record is consistent and CHG is false. -/
theorem inv_record {s : State} {code : FaultCode} {op : Word} {addr : Nat} {value : Byte} (hs : s.Inv)
    (hchg : s.chg = false)
    (hc : FaultRecord.consistent { code := code, pc := s.pc, op := op, addr := addr, value := value }) :
    (s.record code op addr value).Inv where
  mem_wf := hs.mem_wf
  stack_fetched := hs.stack_fetched
  fault_consistent := by
    intro r hr
    cases hr
    exact ⟨hc, rfl, hchg⟩

/-- With no fault recorded only memory and the stack are in question. -/
theorem inv_of_running {s : State} (hrun : s.running) (hmem : s.mem.wf) (hstack : StackFetched s) : s.Inv where
  mem_wf := hmem
  stack_fetched := hstack
  fault_consistent := by
    intro r hr
    rw [hrun] at hr
    cases hr

/-- A fetched instruction keeps the invariant of a running core that has begun its tick. -/
theorem exec_keeps_inv {i : Instr} {s t : State} (hs : s.Inv) (hrun : s.running) (hchg : s.chg = false)
    (hpc : s.pc.toNat ≤ 0xFFE) (hd : decode (fetchWord s) = .ok i) (h : exec i s = .next t) : t.Inv := by
  rcases exec_flt h with hflt | ⟨code, addr, value, hr, rfl⟩
  · exact inv_of_running (hflt.trans hrun) ((exec_stores h).wf hs.mem_wf)
      (exec_keeps_stackFetched hs.stack_fetched hpc h)
  · have hop : encode i = fetchWord s := (encodeOfDecodeIsTheWord _ i hd).1
    exact inv_record hs hchg (hr.consistent (hop ▸ hd) hpc)

theorem tick_keeps_inv {inp : TickInput} {s t : State} (hs : s.Inv) (hrun : s.running) (h : tick inp s = .next t) :
    t.Inv := by
  have hbegun : (beginTick inp s).Inv := inv_of_running hrun hs.mem_wf hs.stack_fetched
  rcases tick_next hrun h with ⟨hpc, rfl⟩ | ⟨hpc, hd, rfl⟩ | ⟨hpc, i, hd, hexec⟩
  · exact inv_record hbegun rfl ⟨hpc, rfl, rfl, rfl⟩
  · exact inv_record hbegun rfl ⟨hpc, hd, rfl, rfl⟩
  · exact exec_keeps_inv hbegun hrun rfl hpc hd hexec

theorem beforeTick_keeps_inv {s : State} (hs : s.Inv) : (beforeTick s).Inv := by
  obtain ⟨dt, st, pending, draws, h⟩ := beforeTick_eq s
  rw [h]
  exact ⟨hs.mem_wf, hs.stack_fetched, hs.fault_consistent⟩

/-- Settles O59: the host's decrements touch nothing the invariant speaks of, and the tick keeps it. -/
theorem everyStepKeepsTheInvariant : Obligations.EveryStepKeepsTheInvariant := by
  unfold Obligations.EveryStepKeepsTheInvariant
  intro s t hs h
  rcases step_cases s with ⟨_, hstep⟩ | ⟨hrun, hstep⟩ <;> rw [hstep] at h
  · cases h
    exact hs
  · exact tick_keeps_inv (beforeTick_keeps_inv hs) ((beforeTick_flt s).trans hrun) h

/-- Settles O58: memory and the stack are empty, and no fault is recorded. -/
theorem resetMeetsTheInvariant : Obligations.ResetMeetsTheInvariant := by
  unfold Obligations.ResetMeetsTheInvariant
  exact inv_of_running rfl Memory.wf_nil fun k hk => absurd hk (Nat.not_lt_zero k.val)

end Sys2Proof.Machine
end

section
/-! PROOFS. The record of a tick that faults (`tick_faults`), that every step answers (`step_answers`) and how far the pc
moves (`exec_moves_pc`); from them, and from what an instruction commits, the statements of 10_state.md and
60_exceptions.md on halted and faulting cores and on the pc and the index. -/

namespace Sys2Proof.Machine

/-! ### Halted and faulting cores (60_exceptions.md R243, R244) -/

theorem step_halted {s : State} (h : ¬ s.running) : step s = .next s := by
  rcases step_cases s with ⟨_, hs⟩ | ⟨hrun, _⟩
  · exact hs
  · exact absurd hrun h

theorem runsTo_halted_iff {s : State} (h : ¬ s.running) (k : Nat) (t : State) : runsTo k s t ↔ t = s := by
  induction k with
  | zero => exact runsTo_zero s t
  | succ k ih => simp [runsTo_succ, step_halted h, ih]

theorem decreaseTimers_halted {s : State} (h : ¬ s.running) : decreaseTimers s = s :=
  if_pos (Option.isSome_iff_ne_none.2 h)

/-- Settles O11: the tick, the decrement and the step each test FLT first. -/
theorem haltedCoreIsFrozen : Obligations.HaltedCoreIsFrozen := by
  unfold Obligations.HaltedCoreIsFrozen
  intro s h
  exact ⟨fun inp => tick_halted inp s h, decreaseTimers_halted h, fun k t => (runsTo_halted_iff h k t).1,
    fun k => (runsTo_halted_iff h k s).2 rfl, rfl⟩

/-- Settles O13: a committed instruction leaves FLT clear, and a fault writes its record only. -/
theorem faultCommitsNothing : Obligations.FaultCommitsNothing := by
  unfold Obligations.FaultCommitsNothing
  intro inp s t hrun h hflt
  rcases tick_commits_or_records hrun h with ⟨i, _, hc⟩ | ⟨code, op, addr, value, rfl⟩
  · exact absurd (hc.flt.trans hrun) hflt
  · simp

/-- The record of a tick that faults: of the fetch, of the decoder, or of the decoded instruction. -/
theorem tick_faults {inp : TickInput} {s t : State} {r : FaultRecord} (hrun : s.running)
    (h : tick inp s = .next t) (hr : t.flt = some r) :
    (0xFFE < s.pc.toNat ∧ r = ⟨.fetchOutOfRange, s.pc, 0, 0, 0⟩) ∨
    (s.pc.toNat ≤ 0xFFE ∧ (∃ e, decode (fetchWord s) = .error e) ∧
      r = ⟨.decodeError, s.pc, fetchWord s, 0, 0⟩) ∨
    (s.pc.toNat ≤ 0xFFE ∧ ∃ i code addr value, decode (fetchWord s) = .ok i ∧
      Raises i (beginTick inp s) code addr value ∧ r = ⟨code, s.pc, fetchWord s, addr, value⟩) := by
  rcases tick_next hrun h with ⟨hpc, rfl⟩ | ⟨hpc, hd, rfl⟩ | ⟨hpc, i, hd, hexec⟩
  · cases hr
    exact .inl ⟨hpc, rfl⟩
  · cases hr
    exact .inr (.inl ⟨hpc, hd, rfl⟩)
  · rcases exec_flt hexec with hflt | ⟨code, addr, value, hraises, rfl⟩
    · rw [hflt, beginTick_flt, hrun] at hr
      cases hr
    · cases hr
      rw [(encodeOfDecodeIsTheWord _ i hd).1]
      exact .inr (.inr ⟨hpc, i, code, addr, value, hd, hraises, rfl⟩)

/-- Settles O14: the two faults of the tick and the faults of the decoded instruction, each with its condition. -/
theorem faultRecordsFollowTheTable : Obligations.FaultRecordsFollowTheTable := by
  unfold Obligations.FaultRecordsFollowTheTable
  refine ⟨⟨rfl, rfl, rfl, rfl, rfl, rfl, rfl⟩, ?_⟩
  intro inp s t r hrun h hr
  rcases tick_faults hrun h hr with ⟨hpc, rfl⟩ | ⟨hpc, hd, rfl⟩ | ⟨hpc, i, code, addr, value, hd, hraises, rfl⟩
  · exact ⟨rfl, fun hne => absurd rfl hne, ⟨hpc, rfl, rfl, rfl⟩, nofun, nofun, nofun, nofun, nofun⟩
  · exact ⟨rfl, fun _ => rfl, ⟨hpc, hd, rfl, rfl⟩, nofun, nofun, nofun, nofun, nofun⟩
  · refine ⟨rfl, fun _ => rfl, hraises.consistent hd hpc, ?_⟩
    cases hraises with
    | overflow hsp => exact ⟨fun _ => hsp, nofun, nofun, nofun, nofun⟩
    | underflow hsp => exact ⟨nofun, fun _ => hsp, nofun, nofun, nofun⟩
    | range hpos hout => exact ⟨nofun, nofun, fun _ => ⟨rfl, i, hd, hpos, hout⟩, nofun, nofun⟩
    | reserved hpos hlow => exact ⟨nofun, nofun, nofun, fun _ => ⟨rfl, hlow⟩, nofun⟩
    | @key _ _ x hi hv =>
      refine ⟨nofun, nofun, nofun, nofun, fun _ => ⟨x, rfl, ?_⟩⟩
      rcases hi with rfl | rfl
      · exact .inl hd
      · exact .inr hd

/-! ### Every step answers (10_state.md R60) -/

theorem exec_answers (i : Instr) (s : State) : ∃ t, exec i s = .next t := by
  rcases exec_completes_or_raises i s with ⟨t, h, _⟩ | ⟨code, addr, value, _, h⟩
  · exact ⟨t, h⟩
  · exact ⟨_, h⟩

theorem tick_answers (inp : TickInput) {s : State} (hrun : s.running) : ∃ t, tick inp s = .next t := by
  rcases tick_cases inp s hrun with ⟨h, _⟩ | ⟨_, ⟨e, _, h⟩ | ⟨i, _, h⟩⟩ <;> rw [h]
  · exact ⟨_, rfl⟩
  · exact ⟨_, rfl⟩
  · exact exec_answers i _

theorem step_answers (s : State) : ∃ t, step s = .next t := by
  rcases step_cases s with ⟨_, h⟩ | ⟨hrun, h⟩ <;> rw [h]
  · exact ⟨s, rfl⟩
  · exact tick_answers _ ((beforeTick_flt s).trans hrun)

/-- Settles O15: a run of steps that each answer a next state answers one. -/
theorem everyStepAnswersANextState : Obligations.EveryStepAnswersANextState := by
  unfold Obligations.EveryStepAnswersANextState
  intro k
  induction k with
  | zero => exact fun s => ⟨s, rfl⟩
  | succ k ih =>
    intro s
    obtain ⟨u, hu⟩ := step_answers s
    obtain ⟨t, ht⟩ := ih u
    exact ⟨t, (runsTo_succ k s t).2 ⟨u, hu, ht⟩⟩

/-! ### The pc and the index (10_state.md R23 to R25) -/

/-- The pc moves by 2, by 4 in an instruction that may skip, or not at all in `Fx0A`. -/
def MovesPc (i : Instr) (s t : State) : Prop :=
  t.pc = s.pc + 2 ∨ (skipping i = true ∧ t.pc = s.pc + 4) ∨ ∃ x, i = .ldVxK x ∧ t.pc = s.pc

theorem skipIf_moves {i : Instr} {c : Bool} {s t : State} (hi : skipping i = true) (h : skipIf c s = .next t) :
    MovesPc i s t := by
  rw [skipIf_eq] at h
  cases h
  cases c
  · exact .inl rfl
  · exact .inr (.inl ⟨hi, rfl⟩)

theorem skipOnKey_moves {i : Instr} {op : Word} {x : Reg} {want : Bool} {s t : State} (hi : skipping i = true)
    (h : skipOnKey op x want s = .next t) : MovesPc i s t ∨ t.flt ≠ none := by
  rcases skipOnKey_cases op x want s with ⟨k, _, hs⟩ | ⟨hs, _⟩ <;> rw [hs] at h
  · exact .inl (skipIf_moves hi h)
  · cases h
    exact .inr nofun

theorem storeAtI_moves {i : Instr} {op : Word} {bytes : List Byte} {index : Word} {s t : State}
    (h : storeAtI op bytes index s = .next t) : MovesPc i s t ∨ t.flt ≠ none := by
  rcases storeAtI_cases op bytes index s with ⟨hs, _⟩ | ⟨hs, _⟩ | ⟨hs, _⟩ <;> rw [hs] at h <;> cases h
  · exact .inl (.inl rfl)
  · exact .inr nofun
  · exact .inr nofun

/-- An instruction that is no jump moves the pc as its outcome says, or faults. -/
theorem exec_moves_pc {i : Instr} {s t : State} (hj : jumping i = false) (h : exec i s = .next t) :
    MovesPc i s t ∨ t.flt ≠ none := by
  cases i with
  | ret | jp | call | jpV0 => cases hj
  | seVxKk | sneVxKk | seVxVy | sneVxVy => exact .inl (skipIf_moves rfl h)
  | skp | sknp => exact skipOnKey_moves rfl h
  | ldBVx | ldMemVx => exact storeAtI_moves h
  | drw | ldVxMem =>
    simp only [exec, execDrw, execLdVxMem] at h
    split at h <;> cases h
    · exact .inr nofun
    · exact .inl (.inl rfl)
  | ldVxK x =>
    cases h
    split
    · exact .inl (.inr (.inr ⟨x, rfl, rfl⟩))
    · exact .inl (.inl rfl)
  | _ =>
    cases h
    exact .inl (.inl rfl)

/-- Settles O16: the move of the pc as 16-bit words, read as numbers. -/
theorem pcAdvancesOnlyByTheOutcome : Obligations.PcAdvancesOnlyByTheOutcome := by
  unfold Obligations.PcAdvancesOnlyByTheOutcome
  intro i s t h hflt hrun hj
  rcases exec_moves_pc hj h with hmove | hfault
  · rcases hmove with hpc | ⟨hi, hpc⟩ | hwait
    · exact .inl (hpc ▸ BitVec.toNat_add s.pc 2)
    · exact .inr (.inl ⟨hi, hpc ▸ BitVec.toNat_add s.pc 4⟩)
    · exact .inr (.inr hwait)
  · exact absurd (hflt.trans hrun) hfault

/-- Settles O47: a committed instruction keeps `I` unless it is one of the five, and a fault keeps it. -/
theorem indexIsWrittenOnlyByItsFive : Obligations.IndexIsWrittenOnlyByItsFive := by
  unfold Obligations.IndexIsWrittenOnlyByItsFive
  intro i s t h hne
  rcases commits_or_records h with hc | ⟨code, addr, value, rfl⟩
  · by_contra hno
    exact hne (hc.index (Bool.eq_false_iff.2 hno))
  · exact absurd rfl hne

end Sys2Proof.Machine
end

section
/-! PROOFS. A change of state that an instruction ignores (`Ignores`) commutes with it (`exec_commutes`); from it, and
from what an instruction commits, the statements on who reads and writes the stack, the devices and the inputs. -/

namespace Sys2Proof.Machine

/-! ### Changes that an instruction ignores (10_state.md R27 to R29, R55, R56) -/

/-- `f` keeps what every instruction reads and commutes with what every instruction writes; on the stack, the display,
the timers and the inputs this is asked only of an instruction that uses them. -/
structure Ignores (i : Instr) (f : State → State) : Prop where
  v : ∀ s, (f s).v = s.v := by intros; rfl
  index : ∀ s, (f s).i = s.i := by intros; rfl
  mem : ∀ s, (f s).mem = s.mem := by intros; rfl
  params : ∀ s, (f s).params = s.params := by intros; rfl
  pc : ∀ s, (f s).pc = s.pc := by intros; rfl
  setV : ∀ s r b, (f s).setV r b = f (s.setV r b) := by intros; rfl
  setRegs : ∀ s v, (f s).setRegs v = f (s.setRegs v) := by intros; rfl
  setI : ∀ s w, (f s).setI w = f (s.setI w) := by intros; rfl
  setMem : ∀ s m, (f s).setMem m = f (s.setMem m) := by intros; rfl
  go : ∀ s flow, (f s).go flow = f (s.go flow) := by intros; rfl
  record : ∀ s code op addr value, (f s).record code op addr value = f (s.record code op addr value) := by intros; rfl
  sp : usesStack i = true → ∀ s, (f s).sp = s.sp := by intros; rfl
  stack : usesStack i = true → ∀ s, (f s).stack = s.stack := by intros; rfl
  pop : usesStack i = true → ∀ s, (f s).pop = f s.pop := by intros; rfl
  push : usesStack i = true → ∀ s w room room', (f s).push w room' = f (s.push w room) := by intros; rfl
  display : drawing i = true → ∀ s, (f s).display = s.display := by intros; rfl
  setDisplay : drawing i = true → ∀ s d, (f s).setDisplay d = f (s.setDisplay d) := by intros; rfl
  dt : (∃ x, i = .ldVxDt x) → ∀ s, (f s).dt = s.dt := by intros; rfl
  setDt : (∃ x, i = .ldDtVx x) → ∀ s b, (f s).setDt b = f (s.setDt b) := by intros; rfl
  setSt : (∃ x, i = .ldStVx x) → ∀ s b, (f s).setSt b = f (s.setSt b) := by intros; rfl
  keys : readsKeys i = true → ∀ s k, (f s).input.down k = s.input.down k := by intros; rfl
  drawnKey : readsKeys i = true → ∀ s, (f s).input.drawnKey = s.input.drawnKey := by intros; rfl
  rnd : (∃ x kk, i = .rnd x kk) → ∀ s, (f s).input.rnd = s.input.rnd := by intros; rfl

section
variable {i : Instr} {f : State → State} (hf : Ignores i f)
include hf

theorem Ignores.getV (s : State) (r : Reg) : (f s).getV r = s.getV r := by rw [State.getV, hf.v, State.getV]

theorem Ignores.baseAddress (s : State) : Machine.baseAddress (f s) = Machine.baseAddress s :=
  congrArg BitVec.toNat (hf.index s)

theorem Ignores.shiftSource (x y : Reg) (s : State) : Machine.shiftSource x y (f s) = Machine.shiftSource x y s := by
  simp only [Machine.shiftSource, hf.params, hf.getV]

theorem Ignores.finish (flow : Flow) (s : State) : Machine.finish flow (f s) = mapNext f (Machine.finish flow s) :=
  congrArg Host.Outcome.next (hf.go s flow)

theorem Ignores.raise (code : FaultCode) (op : Word) (addr : Nat) (value : Byte) (s : State) :
    Machine.raise code op addr value (f s) = mapNext f (Machine.raise code op addr value s) :=
  congrArg Host.Outcome.next (hf.record s code op addr value)

theorem Ignores.result (x : Reg) (b : Byte) (s : State) :
    Machine.result x b (f s) = mapNext f (Machine.result x b s) := by
  rw [Machine.result, hf.setV, hf.finish, Machine.result]

theorem Ignores.resultFlag (x : Reg) (b flag : Byte) (s : State) :
    Machine.resultFlag x b flag (f s) = mapNext f (Machine.resultFlag x b flag s) := by
  rw [Machine.resultFlag, hf.setV, hf.setV, hf.finish, Machine.resultFlag]

theorem Ignores.skipIf (c : Bool) (s : State) : Machine.skipIf c (f s) = mapNext f (Machine.skipIf c s) :=
  hf.finish _ s

theorem Ignores.storeAtI (op : Word) (bytes : List Byte) (index : Word) (s : State) :
    Machine.storeAtI op bytes index (f s) = mapNext f (Machine.storeAtI op bytes index s) := by
  simp only [Machine.storeAtI, hf.baseAddress, hf.mem, hf.setMem, hf.setI, hf.finish, hf.raise]
  split
  · rfl
  · split <;> rfl

theorem Ignores.skipOnKey (hi : readsKeys i = true) (op : Word) (x : Reg) (want : Bool) (s : State) :
    Machine.skipOnKey op x want (f s) = mapNext f (Machine.skipOnKey op x want s) := by
  simp only [Machine.skipOnKey, hf.getV, hf.keys hi, hf.skipIf, hf.raise]
  split <;> rfl

theorem Ignores.spriteRows (n : Nat) (s : State) : Machine.spriteRows n (f s) = Machine.spriteRows n s := by
  rw [Machine.spriteRows, hf.mem, hf.baseAddress, Machine.spriteRows]

theorem Ignores.drawSprite (hi : drawing i = true) (x y : Reg) (n : Nat) (s : State) :
    Machine.drawSprite x y n (f s) = Machine.drawSprite x y n s := by
  simp only [Machine.drawSprite, originX, originY, hf.getV, hf.display hi, hf.spriteRows]

end

/-- By the operation an instruction ends in: each of them commutes with a change that the instruction ignores. -/
theorem exec_commutes {i : Instr} {f : State → State} (hf : Ignores i f) (s : State) :
    exec i (f s) = mapNext f (exec i s) := by
  cases i with
  | cls => simp only [exec, execCls, hf.setDisplay rfl, hf.finish]
  | ret =>
    simp only [exec, execRet, State.stackTop, hf.sp rfl, hf.stack rfl, hf.pop rfl, hf.finish, hf.raise]
    split <;> rfl
  | call nnn =>
    simp only [exec, execCall, hf.pc]
    by_cases room : s.sp.val < 16
    · rw [dif_pos room, dif_pos (hf.sp rfl s ▸ room), hf.push rfl s s.pc room, hf.finish]
    · rw [dif_neg room, dif_neg (hf.sp rfl s ▸ room), hf.raise]
  | jp | jpV0 => simp only [exec, execJp, execJpV0, hf.getV, hf.finish]
  | seVxKk | sneVxKk | seVxVy | sneVxVy =>
    simp only [exec, execSeVxKk, execSneVxKk, execSeVxVy, execSneVxVy, hf.getV, hf.skipIf]
  | ldVxKk | addVxKk | ldVxVy | orVxVy | andVxVy | xorVxVy =>
    simp only [exec, execLdVxKk, execAddVxKk, execLdVxVy, execOrVxVy, execAndVxVy, execXorVxVy, hf.getV, hf.result]
  | addVxVy | subVxVy | subnVxVy | shrVxVy | shlVxVy =>
    simp only [exec, execAddVxVy, execSubVxVy, execSubnVxVy, execShrVxVy, execShlVxVy, hf.getV, hf.shiftSource,
      hf.resultFlag]
  | rnd x kk => simp only [exec, execRnd, hf.rnd ⟨x, kk, rfl⟩, hf.result]
  | ldI | addIVx | ldFVx => simp only [exec, execLdI, execAddIVx, execLdFVx, hf.index, hf.getV, hf.setI, hf.finish]
  | drw x y n =>
    simp only [exec, execDrw, hf.baseAddress, hf.drawSprite rfl, hf.setDisplay rfl, hf.setV, hf.finish, hf.raise]
    split <;> rfl
  | skp | sknp => simp only [exec, execSkp, execSknp, hf.skipOnKey rfl]
  | ldVxDt x => simp only [exec, execLdVxDt, hf.dt ⟨x, rfl⟩, hf.setV, hf.finish]
  | ldVxK x =>
    simp only [exec, execLdVxK, hf.drawnKey rfl, hf.setV, hf.go]
    split <;> rfl
  | ldDtVx x => simp only [exec, execLdDtVx, hf.getV, hf.setDt ⟨x, rfl⟩, hf.finish]
  | ldStVx x => simp only [exec, execLdStVx, hf.getV, hf.setSt ⟨x, rfl⟩, hf.finish]
  | ldBVx | ldMemVx =>
    simp only [exec, execLdBVx, execLdMemVx, registersUpTo, hf.getV, hf.v, hf.index, hf.storeAtI]
  | ldVxMem x =>
    simp only [exec, execLdVxMem, hf.baseAddress, hf.mem, hf.v, hf.index, hf.setRegs, hf.setI, hf.finish, hf.raise]
    split <;> rfl

/-! ### The statements -/

theorem execRet_keeps_stack {s t : State} (h : exec .ret s = .next t) : t.stack = s.stack := by
  rw [exec, execRet] at h
  split_ifs at h <;> cases h <;> rfl

/-- Settles O48: only a change of the stack concerns `RET` and `CALL`, and `RET` writes the pointer alone. -/
theorem stackIsTouchedOnlyByCallAndReturn : Obligations.StackIsTouchedOnlyByCallAndReturn := by
  unfold Obligations.StackIsTouchedOnlyByCallAndReturn
  refine ⟨?writes, ?reads, fun s t => execRet_keeps_stack⟩
  case writes =>
    intro i s t h hi
    rcases commits_or_records h with hc | ⟨code, addr, value, rfl⟩
    · exact hc.stack hi
    · exact ⟨rfl, rfl⟩
  case reads =>
    intro i s sp stack hi
    have hno : ¬ usesStack i = true := Bool.eq_false_iff.1 hi
    exact exec_commutes (f := fun t => { t with sp := sp, stack := stack })
      { sp := (absurd · hno), stack := (absurd · hno), pop := (absurd · hno), push := (absurd · hno) } s

/-- Settles O49: what is committed, and for each device the change that the other instructions ignore. -/
theorem devicesAreUsedOnlyByTheirInstructions : Obligations.DevicesAreUsedOnlyByTheirInstructions := by
  unfold Obligations.DevicesAreUsedOnlyByTheirInstructions
  refine ⟨?writes, ?delay, fun _ _ _ => rfl, ?sound, fun _ _ _ => rfl, ?display, fun _ _ => rfl⟩
  case writes =>
    intro i s t h
    rcases commits_or_records h with hc | ⟨code, addr, value, rfl⟩
    · refine ⟨fun hne => ?_, fun hne => ?_, fun hne => ?_⟩ <;> by_contra hno
      · exact hne (hc.dt (not_exists.1 hno))
      · exact hne (hc.st (not_exists.1 hno))
      · exact hne (hc.display (Bool.eq_false_iff.2 hno))
    · exact ⟨(absurd rfl ·), (absurd rfl ·), (absurd rfl ·)⟩
  case delay =>
    intro i s b hread hwrite
    exact exec_commutes (f := fun t => t.setDt b)
      { dt := (absurd · (not_exists.2 hread)), setDt := (absurd · (not_exists.2 hwrite)) } s
  case sound =>
    intro i s b hwrite
    exact exec_commutes (f := fun t => t.setSt b) { setSt := (absurd · (not_exists.2 hwrite)) } s
  case display =>
    intro i s d hi
    have hno : ¬ drawing i = true := Bool.eq_false_iff.1 hi
    exact exec_commutes (f := State.withDisplay d) { display := (absurd · hno), setDisplay := (absurd · hno) } s

/-- With no key down `Fx0A` waits: nothing is written and the pc stays (44_keys_timers.md R223, R224). -/
theorem exec_ldVxK_noKey {s : State} (h : ∀ k, s.input.keys.get k = false) (x : Reg) :
    exec (.ldVxK x) s = .next s := by
  rw [exec, execLdVxK, drawnKey_none h]
  rfl

/-- Settles O51: each input is ignored by all but its own instructions. -/
theorem inputsAreReadOnlyByTheirInstructions : Obligations.InputsAreReadOnlyByTheirInstructions := by
  unfold Obligations.InputsAreReadOnlyByTheirInstructions
  refine ⟨?exit, ?keys, ?rnd, fun x s _ hkeys => exec_ldVxK_noKey hkeys x⟩
  case exit => exact fun i s exit => exec_commutes (f := State.withExit exit) {} s
  case keys =>
    intro i s keys hi
    have hno : ¬ readsKeys i = true := Bool.eq_false_iff.1 hi
    exact exec_commutes (f := State.withKeys keys) { keys := (absurd · hno), drawnKey := (absurd · hno) } s
  case rnd =>
    intro i s b hi
    have hno : ¬ ∃ x kk, i = .rnd x kk := fun ⟨x, kk, he⟩ => hi x kk he
    exact exec_commutes (f := State.withRnd b) { rnd := (absurd · hno) } s

end Sys2Proof.Machine
end

section
/-! PROOFS. What `RET` and `CALL` do with and without room on the stack, and what the shared outcome `resultFlag` of the
instructions with a flag writes (`resultFlag_writes`); from them the statements of 40_flow.md and 41_alu.md. -/

namespace Sys2Proof.Machine

/-! ### The stack (40_flow.md R130, R132) -/

/-- Everything but the pc, the stack and its pointer is unchanged. -/
abbrev OnlyStack (s t : State) : Prop :=
  t.i = s.i ∧ SameRegs s t ∧ SameMemory s t ∧ SameTimers s t ∧ SameScreen s t ∧ SameRest s t

theorem exec_ret_empty {s : State} (h : s.sp.val = 0) :
    exec .ret s = .next (s.withFault .stackUnderflow 0x00EE 0 0) := by
  rw [exec, execRet, if_pos h, raise_eq]
  rfl

/-- With `k + 1` entries `RET` goes 2 past the entry in slot `k`. -/
theorem exec_ret_pops {s : State} {k : Fin 16} (h : s.sp.val = k.val + 1) :
    exec .ret s = .next (s.pop.go (.jump (s.stack.get k + 2))) := by
  have htop : s.stackTop = s.stack.get k := congrArg s.stack.get (Fin.ext (by simp only; omega))
  rw [exec, execRet, if_neg (by omega), htop, finish_eq]

theorem exec_call_full {nnn : Addr12} {s : State} (h : s.sp.val = 16) :
    exec (.call nnn) s = .next (s.withFault .stackOverflow (formatNnn 0x2 nnn) 0 0) := by
  rw [exec, execCall, dif_neg (by omega), raise_eq]
  rfl

theorem exec_call_pushes {nnn : Addr12} {s : State} (room : s.sp.val < 16) :
    exec (.call nnn) s = .next ((s.push s.pc room).go (.jump (zextAddr nnn))) := by
  rw [exec, execCall, dif_pos room, finish_eq]

/-- A push writes the slot that the pointer names. -/
theorem stack_get_push {s : State} {k : Fin 16} (h : s.sp.val = k.val) (w : Word) (room : s.sp.val < 16) (j : Fin 16) :
    (s.push w room).stack.get j = if j = k then w else s.stack.get j := by
  simp only [State.push_stack, Vector.get_eq_getElem, Vector.getElem_set, h, Fin.ext_iff, eq_comm (a := k.val)]

theorem onlyStack_ret (s : State) (w : Word) : OnlyStack s (s.pop.go (.jump w)) := by
  simp [OnlyStack, SameRegs, SameMemory, SameTimers, SameScreen, SameRest]

theorem onlyStack_call (s : State) (room : s.sp.val < 16) (w : Word) :
    OnlyStack s ((s.push s.pc room).go (.jump w)) := by
  simp [OnlyStack, SameRegs, SameMemory, SameTimers, SameScreen, SameRest]

/-- Settles O17: an empty stack is the fault, and any other pops its top entry. -/
theorem retResumesAfterTheCall : Obligations.RetResumesAfterTheCall := by
  unfold Obligations.RetResumesAfterTheCall
  refine ⟨rowDecodes_of_getElem? 1 rfl, fun s => ⟨exec_ret_empty, fun k hk => ?_⟩⟩
  have hsp : s.sp.val - 1 = k.val := by omega
  exact ⟨_, exec_ret_pops hk, hsp, BitVec.toNat_add _ 2, rfl, onlyStack_ret s _⟩

/-- Settles O19: a full stack is the fault, and any other takes the pc into its next slot. -/
theorem callPushesItsOwnAddress : Obligations.CallPushesItsOwnAddress := by
  unfold Obligations.CallPushesItsOwnAddress
  refine ⟨rowDecodes_of_getElem? 3 rfl, fun nnn s => ⟨exec_call_full, fun k hk => ?_⟩⟩
  have room : s.sp.val < 16 := hk ▸ k.isLt
  have hslot : ∀ j, (s.push s.pc room).stack.get j = if j = k then s.pc else s.stack.get j :=
    stack_get_push hk s.pc room
  refine ⟨_, exec_call_pushes room, ?sp, ?slot, ?others, zextAddr_toNat nnn, onlyStack_call s room _⟩
  case sp => exact congrArg (· + 1) hk
  case slot => exact (hslot k).trans (if_pos rfl)
  case others => exact fun j hj => (hslot j).trans (if_neg hj)

/-- Settles O20: the `RET` pops the slot that the `CALL` wrote, which holds the call's own address. -/
theorem callThenReturnContinuesAfterTheCall : Obligations.CallThenReturnContinuesAfterTheCall := by
  unfold Obligations.CallThenReturnContinuesAfterTheCall
  intro nnn s t u w k hk hcall hsp hslot hret
  have room : s.sp.val < 16 := hk ▸ k.isLt
  rw [exec_call_pushes room] at hcall
  cases hcall
  have husp : u.sp.val = k.val + 1 := (congrArg Fin.val hsp).trans (congrArg (· + 1) hk)
  have htop : u.stack.get k = s.pc := hslot.trans ((stack_get_push hk s.pc room k).trans (if_pos rfl))
  rw [exec_ret_pops husp, htop] at hret
  cases hret
  refine ⟨BitVec.toNat_add s.pc 2, Fin.ext ?_, rfl⟩
  change u.sp.val - 1 = s.sp.val
  omega

/-! ### The jumps and skips on registers (40_flow.md R135 to R137) -/

/-- Settles O22: `SE` is `skipIf` on equality of the registers, `SNE` on inequality. -/
theorem skipsCompareTwoRegisters : Obligations.SkipsCompareTwoRegisters := by
  unfold Obligations.SkipsCompareTwoRegisters
  refine ⟨rowDecodes_of_getElem? 6 rfl, rowDecodes_of_getElem? 7 rfl, fun _ => decode_error_of_lowNibble, ?_⟩
  intro x y s
  exact ⟨skipIf_beq_moves_pc (s.getV x) (s.getV y) s, skipIf_bne_moves_pc (s.getV x) (s.getV y) s⟩

/-- The sum of a 12-bit address and a byte does not wrap. -/
theorem offsetTarget_toNat (nnn : Addr12) (b : Byte) : (offsetTarget nnn b).toNat = nnn.toNat + b.toNat := by
  have hn : nnn.toNat < 4096 := nnn.isLt
  have hb : b.toNat < 256 := b.isLt
  rw [offsetTarget, BitVec.toNat_add, zextAddr_toNat, zextByte_toNat]
  exact Nat.mod_eq_of_lt (show nnn.toNat + b.toNat < 65536 by omega)

/-- Settles O23: the jump's outcome writes the sum to the pc. -/
theorem jumpWithOffsetAddsV0 : Obligations.JumpWithOffsetAddsV0 := by
  unfold Obligations.JumpWithOffsetAddsV0
  refine ⟨rowDecodes_of_getElem? 20 rfl, fun nnn s => ?_⟩
  exact ⟨_, finish_eq _ s, offsetTarget_toNat nnn (s.getV 0), onlyPc_go s _⟩

/-! ### Results with no flag (41_alu.md R154 to R157, R163) -/

/-- `result`, with the bits of the byte it writes. -/
theorem result_writes_bits (x : Reg) {b : Byte} {bit : Nat → Bool} (hbit : ∀ k, b.getLsbD k = bit k) (s : State) :
    ∃ t, result x b s = .next t ∧ Writes x (t.getV x) s t ∧ ∀ k, k < 8 → (t.getV x).getLsbD k = bit k := by
  obtain ⟨t, h, hdest, hrest⟩ := result_writes x b s
  exact ⟨t, h, ⟨rfl, hrest⟩, fun k _ => hdest ▸ hbit k⟩

/-- Settles O26: each operation is `result` with the bits of the rule. -/
theorem bitwiseOperationsWriteNoFlag : Obligations.BitwiseOperationsWriteNoFlag := by
  unfold Obligations.BitwiseOperationsWriteNoFlag
  refine ⟨rowDecodes_of_getElem? 11 rfl, rowDecodes_of_getElem? 12 rfl, rowDecodes_of_getElem? 13 rfl, ?_⟩
  intro x y s
  exact ⟨result_writes_bits x (fun _ => BitVec.getLsbD_or) s, result_writes_bits x (fun _ => BitVec.getLsbD_and) s,
    result_writes_bits x (fun _ => BitVec.getLsbD_xor) s⟩

/-- Settles O30: `RND` is `result` with the masked byte. -/
theorem randomByteIsMasked : Obligations.RandomByteIsMasked := by
  unfold Obligations.RandomByteIsMasked
  refine ⟨rowDecodes_of_getElem? 21 rfl, fun x kk s => ?_⟩
  obtain ⟨t, h, hdest, hrest⟩ := result_writes x (s.input.rnd &&& kk) s
  refine ⟨t, h, ⟨hdest, hrest⟩, fun k hk => ?_⟩
  rw [hdest, BitVec.getLsbD_and, hk, Bool.and_false]

/-! ### Results with a flag (41_alu.md R150, R158 to R162) -/

/-- `resultFlag` writes its byte to `V[x]` and then its flag to VF, and moves the pc to the next instruction. The two
values may be written in another form, as a rule gives them. -/
theorem resultFlag_writes (x : Reg) {b b' flag flag' : Byte} (hb : b = b') (hflag : flag = flag') (s : State) :
    ∃ t, resultFlag x b flag s = .next t ∧ WritesFlag x b' flag' s t := by
  subst hb hflag
  refine ⟨_, finish_eq .next ((s.setV x b).setV VF flag), ?vf, ?dest, ?others, ?pc, ?rest⟩
  case vf => simp
  case dest =>
    intro hx
    simp [hx]
  case others =>
    intro r hr hvf
    simp [hr, hvf]
  case pc => exact BitVec.toNat_add s.pc 2
  case rest => simp [OnlyRegs, SameMemory, SameStack, SameTimers, SameScreen, SameRest]

theorem flagByte_decide (p : Prop) [Decidable p] : flagByte (decide p) = if p then 1 else 0 := by
  by_cases h : p <;> simp [flagByte, h]

/-- Settles O27: `ADD` is `resultFlag` with the 8-bit sum and its carry. -/
theorem addRegistersSetsCarry : Obligations.AddRegistersSetsCarry := by
  unfold Obligations.AddRegistersSetsCarry
  refine ⟨rowDecodes_of_getElem? 14 rfl, fun x y s => resultFlag_writes x ?_ (flagByte_decide _) s⟩
  apply BitVec.eq_of_toNat_eq
  simp

/-- A difference of bytes is that of their numbers, modulo 256. -/
theorem sub_eq_ofInt (a b : Byte) : a - b = BitVec.ofInt 8 ((a.toNat : Int) - b.toNat) := by
  have ha : a.toNat < 256 := a.isLt
  have hb : b.toNat < 256 := b.isLt
  apply BitVec.eq_of_toNat_eq
  rw [BitVec.toNat_sub, BitVec.toNat_ofInt]
  omega

/-- Settles O28: both are `resultFlag` with the 8-bit difference and the strict comparison. -/
theorem subtractSetsStrictNoBorrow : Obligations.SubtractSetsStrictNoBorrow := by
  unfold Obligations.SubtractSetsStrictNoBorrow
  refine ⟨rowDecodes_of_getElem? 15 rfl, rowDecodes_of_getElem? 16 rfl, fun x y s => ⟨?sub, ?subn⟩⟩
  case sub => exact resultFlag_writes x (sub_eq_ofInt (s.getV x) (s.getV y)) (flagByte_decide _) s
  case subn => exact resultFlag_writes x (sub_eq_ofInt (s.getV y) (s.getV x)) (flagByte_decide _) s

theorem shiftSource_eq {x y : Reg} {s : State} {src : Byte}
    (h : (s.params.shiftSrc = .vy ∧ src = s.getV y) ∨ (s.params.shiftSrc = .vx ∧ src = s.getV x)) :
    shiftSource x y s = src := by
  rcases h with ⟨hp, rfl⟩ | ⟨hp, rfl⟩ <;> rw [shiftSource, hp]

theorem shiftRight_eq (b : Byte) : b >>> 1 = BitVec.ofNat 8 (b.toNat / 2) := by
  apply BitVec.eq_of_toNat_eq
  have hb := b.isLt
  simp [Nat.shiftRight_eq_div_pow]
  omega

theorem shiftLeft_eq (b : Byte) : b <<< 1 = BitVec.ofNat 8 (b.toNat * 2 % 256) := by
  apply BitVec.eq_of_toNat_eq
  simp [Nat.shiftLeft_eq]

theorem lowBitFlag_eq (b : Byte) : lowBitFlag b = BitVec.ofNat 8 (b.toNat % 2) := by
  revert b
  decide

theorem highBitFlag_eq (b : Byte) : highBitFlag b = BitVec.ofNat 8 (b.toNat / 128) := by
  revert b
  decide

/-- Settles O29: both are `resultFlag` with the shifted source and the bit that leaves it. -/
theorem shiftsMoveTheLostBitToVF : Obligations.ShiftsMoveTheLostBitToVF := by
  unfold Obligations.ShiftsMoveTheLostBitToVF
  refine ⟨rowDecodes_of_getElem? 17 rfl, rowDecodes_of_getElem? 18 rfl, fun x y s src hsrc => ?_⟩
  rw [exec, exec, execShrVxVy, execShlVxVy, shiftSource_eq hsrc]
  exact ⟨resultFlag_writes x (shiftRight_eq src) (lowBitFlag_eq src) s,
    resultFlag_writes x (shiftLeft_eq src) (highBitFlag_eq src) s⟩

end Sys2Proof.Machine
end

section
/-! PROOFS. The outcomes of the memory transfers in their exclusive cases (`storeAtI_outOfRange`, `storeAtI_inReserved`,
`storeAtI_writes` and the two of `Fx65`), and from them the statements of 42_index_memory.md, of 20_memory.md on a fetch
of stored bytes and of 70_reset_and_hazards.md on the host's loads. -/

namespace Sys2Proof.Machine

/-! ### Stores at the index (20_memory.md R75 to R77) -/

section
variable {op : Word} {bytes : List Byte} {index : Word} {s : State}

theorem storeAtI_outOfRange (hne : bytes ≠ []) (h : 0xFFF < s.i.toNat + bytes.length - 1) :
    storeAtI op bytes index s = .next (s.withFault .memOutOfRange op (max s.i.toNat 0x1000) 0) := by
  have hpos : 0 < bytes.length := List.length_pos_iff.2 hne
  rcases storeAtI_cases op bytes index s with ⟨_, _, hin⟩ | ⟨hs, _⟩ | ⟨_, _, hin⟩
  · simp only [hne, false_or, baseAddress, memSize] at hin
    omega
  · exact hs
  · simp only [hne, false_or, baseAddress, memSize] at hin
    omega

/-- A store that starts below 0x200 ends in memory, so that of its two checks only the second fails. -/
theorem storeAtI_inReserved (hlen : bytes.length ≤ 16) (h : s.i.toNat < 0x200) :
    storeAtI op bytes index s = .next (s.withFault .reservedWrite op s.i.toNat 0) := by
  rcases storeAtI_cases op bytes index s with ⟨_, hbase, _⟩ | ⟨_, hout⟩ | ⟨hs, _⟩
  · rw [baseAddress, programBase] at hbase
    omega
  · rw [baseAddress, memSize] at hout
    omega
  · exact hs

theorem storeAtI_inMemory (hlow : 0x200 ≤ s.i.toNat) (hhigh : s.i.toNat + bytes.length ≤ 0x1000) :
    storeAtI op bytes index s = finish .next ((s.setMem (s.mem.writeBytes (baseAddress s) bytes)).setI index) := by
  rcases storeAtI_cases op bytes index s with ⟨hs, _⟩ | ⟨_, hout⟩ | ⟨_, hbase, _⟩
  · exact hs
  · rw [baseAddress, memSize] at hout
    omega
  · rw [baseAddress, programBase] at hbase
    omega

/-- A store inside 0x200-0xFFF writes its bytes and the index, and nothing else. -/
theorem storeAtI_writes (hlow : 0x200 ≤ s.i.toNat) (hhigh : s.i.toNat + bytes.length ≤ 0x1000) :
    ∃ t, storeAtI op bytes index s = .next t ∧
      (s.mem.wf → ∀ (k : Nat) (h : k < bytes.length), t.mem.read (s.i.toNat + k) = bytes[k]) ∧
      SameMemoryOutside s.i.toNat bytes.length s t ∧ t.i = index ∧ Next s t ∧ SameRegs s t ∧ SameStack s t ∧
      SameTimers s t ∧ SameScreen s t ∧ SameRest s t := by
  refine ⟨_, storeAtI_inMemory hlow hhigh, ?written, ?outside, rfl, BitVec.toNat_add s.pc 2, ?frame⟩
  case written =>
    intro hm k hk
    change (s.mem.writeBytes s.i.toNat bytes).read _ = _
    rw [Memory.read_writeBytes bytes hm.1]
    simp [hk]
  case outside => exact fun b hb => Memory.read_writeBytes_outside bytes s.mem hb
  case frame => simp [SameRegs, SameStack, SameTimers, SameScreen, SameRest]

end

/-! ### `Fx33` (42_index_memory.md R183) -/

theorem length_decimalDigits (b : Byte) : (decimalDigits b).length = 3 := rfl

/-- Each decimal digit fits in a byte. -/
theorem decimalDigits_toNat (b : Byte) :
    (BitVec.ofNat 8 (b.toNat / 100)).toNat = b.toNat / 100 ∧
      (BitVec.ofNat 8 (b.toNat / 10 % 10)).toNat = b.toNat / 10 % 10 ∧
      (BitVec.ofNat 8 (b.toNat % 10)).toNat = b.toNat % 10 := by
  have hb : b.toNat < 256 := b.isLt
  simp only [BitVec.toNat_ofNat]
  omega

/-- Settles O32: the three exclusive cases of a store of the three digits. -/
theorem bcdStoresThreeDigits : Obligations.BcdStoresThreeDigits := by
  unfold Obligations.BcdStoresThreeDigits
  refine ⟨rowDecodes_of_getElem? 31 rfl, fun x s => ⟨?range, ?reserved, ?stores⟩⟩
  case range => exact fun h => storeAtI_outOfRange (List.cons_ne_nil _ _) h
  case reserved => exact fun h => storeAtI_inReserved (by rw [length_decimalDigits]; decide) h
  case stores =>
    intro hlow hhigh
    have hin : s.i.toNat + (decimalDigits (s.getV x)).length ≤ 0x1000 := by rw [length_decimalDigits]; omega
    obtain ⟨t, ht, hwritten, hframe⟩ := storeAtI_writes hlow hin
    refine ⟨t, ht, fun hm => ?_, hframe⟩
    obtain ⟨h0, h1, h2⟩ := decimalDigits_toNat (s.getV x)
    have hread := hwritten hm
    exact ⟨(congrArg _ (hread 0 (Nat.succ_pos 2))).trans h0, (congrArg _ (hread 1 (Nat.one_lt_succ_succ 1))).trans h1,
      (congrArg _ (hread 2 (Nat.lt_succ_self 2))).trans h2⟩

/-! ### `Fx55` (42_index_memory.md R184) -/

/-- The index after a transfer: it wraps only past the last address of a 16-bit word. -/
theorem indexAfter_toNat (i : Word) (x : Reg) : (indexAfter i x).toNat = (i.toNat + x.val + 1) % 65536 := by
  have hx := x.isLt
  rw [indexAfter, BitVec.toNat_add, BitVec.toNat_ofNat]
  omega

/-- What `Fx55` does inside 0x200-0xFFF: `storeAtI_writes` for the registers. -/
theorem exec_ldMemVx_writes {x : Reg} {s : State} (hlow : 0x200 ≤ s.i.toNat) (hhigh : s.i.toNat + x.val ≤ 0xFFF) :
    ∃ t, exec (.ldMemVx x) s = .next t ∧
      (s.mem.wf → ∀ k : Reg, k ≤ x → t.mem.read (s.i.toNat + k.val) = s.getV k) ∧
      SameMemoryOutside s.i.toNat (x.val + 1) s t ∧ t.i.toNat = s.i.toNat + x.val + 1 ∧ Next s t ∧
      SameRegs s t ∧ SameStack s t ∧ SameTimers s t ∧ SameScreen s t ∧ SameRest s t := by
  have hlen := length_registersUpTo x s
  have hin : s.i.toNat + (registersUpTo x s).length ≤ 0x1000 := by omega
  obtain ⟨t, ht, hwritten, houtside, hi, hframe⟩ := storeAtI_writes (op := encode (.ldMemVx x))
    (index := indexAfter s.i x) hlow hin
  refine ⟨t, ht, ?written, hlen ▸ houtside, ?index, hframe⟩
  case written =>
    intro hm k hk
    have hk' : k.val < (registersUpTo x s).length := hlen ▸ Nat.lt_succ_of_le hk
    rw [hwritten hm k.val hk', getElem_registersUpTo]
  case index =>
    rw [hi, indexAfter_toNat]
    omega

/-- Settles O33: the three exclusive cases of a store of `V[0]` to `V[x]`. -/
theorem storeRegistersWritesVZeroToVx : Obligations.StoreRegistersWritesVZeroToVx := by
  unfold Obligations.StoreRegistersWritesVZeroToVx
  refine ⟨rowDecodes_of_getElem? 32 rfl, fun x s => ⟨?range, ?reserved, exec_ldMemVx_writes⟩⟩
  case range =>
    intro h
    have hne : registersUpTo x s ≠ [] := List.length_pos_iff.1 (by rw [length_registersUpTo]; omega)
    exact storeAtI_outOfRange hne (by rw [length_registersUpTo]; omega)
  case reserved => exact fun h => storeAtI_inReserved (by rw [length_registersUpTo]; omega) h

/-- Settles O35: the bytes at `I + k` and `I + k + 1` are the two registers, and a fetch puts the first one high. -/
theorem storedBytesAreFetchedAsWritten : Obligations.StoredBytesAreFetchedAsWritten := by
  unfold Obligations.StoredBytesAreFetchedAsWritten
  intro x s t hm h hflt hrun k j hj hjx
  obtain ⟨hrange, hreserved, hstores⟩ := storeRegistersWritesVZeroToVx.2 x s
  have hlive : t.flt = none := hflt.trans hrun
  have hhigh : s.i.toNat + x.val ≤ 0xFFF := by
    by_contra hout
    rw [hrange (by omega)] at h
    cases h
    cases hlive
  have hlow : 0x200 ≤ s.i.toNat := by
    by_contra hin
    rw [hreserved (by omega)] at h
    cases h
    cases hlive
  obtain ⟨t', ht', hwritten, _⟩ := hstores hlow hhigh
  rw [ht'] at h
  cases h
  have hjx' : j.val ≤ x.val := hjx
  have hpc : (s.i + BitVec.ofNat 16 k.val).toNat = s.i.toNat + k.val := by
    rw [BitVec.toNat_add, BitVec.toNat_ofNat]
    omega
  have hk := hwritten hm k (show k.val ≤ x.val by omega)
  have hk1 := hwritten hm j hjx
  rw [hj, ← Nat.add_assoc] at hk1
  simp only [fetchWord, hpc, hk, hk1, wordOfBytes]

/-! ### `Fx65` (42_index_memory.md R185) -/

theorem exec_ldVxMem_outOfRange {x : Reg} {s : State} (h : 0xFFF < s.i.toNat + x.val) :
    exec (.ldVxMem x) s = .next (s.withFault .memOutOfRange (encode (.ldVxMem x)) (max s.i.toNat 0x1000) 0) := by
  rw [exec, execLdVxMem]
  rcases rangeFault_cases (baseAddress s) (x.val + 1) with ⟨_, hin⟩ | ⟨hr, _⟩
  · rw [baseAddress, memSize] at hin
    omega
  · rw [hr]
    rfl

theorem exec_ldVxMem_inMemory {x : Reg} {s : State} (h : s.i.toNat + x.val ≤ 0xFFF) :
    exec (.ldVxMem x) s = finish .next
      ((s.setRegs (loadRegisters s.mem (baseAddress s) s.v (x.val + 1))).setI (indexAfter s.i x)) := by
  rw [exec, execLdVxMem]
  rcases rangeFault_cases (baseAddress s) (x.val + 1) with ⟨hr, _⟩ | ⟨_, _, hout⟩
  · rw [hr]
  · rw [baseAddress, memSize] at hout
    omega

/-- Settles O34: the range check fails, or the registers up to `V[x]` are loaded and the others kept. -/
theorem loadRegistersReadsVZeroToVx : Obligations.LoadRegistersReadsVZeroToVx := by
  unfold Obligations.LoadRegistersReadsVZeroToVx
  refine ⟨rowDecodes_of_getElem? 33 rfl, fun x s => ⟨exec_ldVxMem_outOfRange, fun h => ?_⟩⟩
  refine ⟨_, exec_ldVxMem_inMemory h, ?loaded, ?kept, indexAfter_toNat s.i x, BitVec.toNat_add s.pc 2, ?frame⟩
  case loaded => exact fun k hk => (loadRegisters_get _ _ _ _ k).trans (if_pos (Nat.lt_succ_of_le hk))
  case kept => exact fun k hk => loadRegisters_get_above _ _ _ hk
  case frame => simp [SameMemory, SameStack, SameTimers, SameScreen, SameRest]

/-! ### The host's loads (70_reset_and_hazards.md R271 to R273) -/

/-- On a memory whose addresses rise load_font() leaves FONT at 0x000. -/
theorem read_writeBytes_font {m : Memory} (hm : m.wf) (f : Font) (d : Fin 16) (r : Fin 5) :
    (m.writeBytes 0 (Font.bytes f)).read (5 * d.val + r.val) = (f.get d).get r := by
  have hlt : 5 * d.val + r.val < (Font.bytes f).length := by rw [Font.length_bytes]; omega
  rw [Memory.read_writeBytes _ hm.1, dif_pos ⟨Nat.zero_le _, hlt⟩]
  exact Font.getElem_bytes f d r hlt

/-- Settles O54: load_font() is refused, or writes the 80 bytes of FONT from address 0 up. -/
theorem fontLoadsAtZero : Obligations.FontLoadsAtZero := by
  unfold Obligations.FontLoadsAtZero
  intro s
  rcases loadFont_cases s with ⟨hstarted, h⟩ | ⟨hstarted, h⟩
  · exact ⟨fun _ => h, fun hno => by simp [hstarted] at hno⟩
  · refine ⟨fun hyes => by simp [hstarted] at hyes, fun _ => ⟨_, h, ?glyphs, ?above⟩⟩
    case glyphs => exact fun hm => read_writeBytes_font hm s.params.font
    case above =>
      intro a ha
      exact Memory.read_writeBytes_outside _ _ (.inr (by rw [Font.length_bytes]; omega))

/-- A tick of a running core ends the time for loads. -/
theorem tick_started {inp : TickInput} {s t : State} (hrun : s.running) (h : tick inp s = .next t) :
    t.started = true := by
  rcases tick_next hrun h with ⟨_, rfl⟩ | ⟨_, _, rfl⟩ | ⟨_, i, _, hexec⟩
  · rfl
  · rfl
  · obtain ⟨_, hstarted, _⟩ := sameModelFields_exec hexec
    exact hstarted

/-- Settles O55: load_rom() is refused, too large, or writes its bytes from 0x200 up. -/
theorem romLoadsAtProgramBase : Obligations.RomLoadsAtProgramBase := by
  unfold Obligations.RomLoadsAtProgramBase
  refine ⟨fun bytes s => ?_, fun inp s t => tick_started⟩
  rcases loadRom_cases bytes s with ⟨hstarted, h⟩ | ⟨hstarted, hlong, h⟩ | ⟨hstarted, hshort, h⟩
  · simp [hstarted, h]
  · refine ⟨fun hyes => by simp [hstarted] at hyes, fun _ _ => h, fun _ hshort => by omega⟩
  · refine ⟨fun hyes => by simp [hstarted] at hyes, fun _ hlong => by omega, fun _ _ => ⟨_, h, ?written, ?outside⟩⟩
    case written =>
      intro hm k hk
      rw [Memory.read_writeBytes bytes hm.1]
      simp [hk]
    case outside => exact fun a ha => Memory.read_writeBytes_outside bytes s.mem ha

/-- Settles O57: `Fx29` points `I` at `5 d`, from where `F465` reads the five bytes that load_font() wrote. -/
theorem fontAddressPointsAtTheGlyph : Obligations.FontAddressPointsAtTheGlyph := by
  unfold Obligations.FontAddressPointsAtTheGlyph
  intro x d s s' t u hm hload hv hpoint hread r k hk
  rcases loadFont_cases s with ⟨_, h⟩ | ⟨_, h⟩ <;> rw [h] at hload <;> cases hload
  cases hpoint
  have hi : (glyphAddress (s.getV x)).toNat = 5 * d.val := by rw [glyphAddress_toNat, hv, Nat.mul_comm]
  obtain ⟨_, hloads⟩ := loadRegistersReadsVZeroToVx.2 4
    (((s.setMem (s.mem.writeBytes 0 (Font.bytes s.params.font))).setI (glyphAddress (s.getV x))).go .next)
  obtain ⟨u', hu', hloaded, _⟩ := hloads (by simp [hi]; omega)
  have hsame : u = u' := Host.Outcome.next.inj (hread.symm.trans hu')
  rw [hsame, hloaded k (by simp [Fin.le_def]; omega)]
  simp only [State.go_mem, State.go_i, State.setI_mem, State.setI_i, State.setMem_mem, hi, hk]
  exact read_writeBytes_font hm s.params.font d r

end Sys2Proof.Machine
end

section
/-! PROOFS. `Dxyn` in its two cases, its collision as the pixels it unsets, and the key instructions by the keys that are
down; from them the statements of 43_display.md on the draw and the read-outs and of 44_keys_timers.md on the keys. -/

namespace Sys2Proof.Machine

/-! ### The draw (43_display.md R202, R204) -/

theorem exec_drw_outOfMemory (x y : Reg) {n : Nat} {s : State} (h : ¬ spriteInMemory n s) :
    exec (.drw x y n) s = .next (s.withFault .memOutOfRange (encode (.drw x y n)) (max s.i.toNat 0x1000) 0) := by
  rw [exec, execDrw]
  rcases rangeFault_cases (baseAddress s) n with ⟨_, hin⟩ | ⟨hr, _⟩
  · rw [baseAddress, memSize] at hin
    rw [spriteInMemory] at h
    omega
  · rw [hr]
    rfl

/-- A draw hits exactly when it unsets a pixel. -/
theorem drawSprite_hit_iff (x y : Reg) {n : Nat} (hn : n ≤ 32) (s : State) :
    (drawSprite x y n s).hit = true ↔
      ∃ px py, s.pixel px py = true ∧ (drawSprite x y n s).display.pixel px py = false := by
  obtain ⟨hpixel, hhit⟩ := drawSprite_spec x y hn s
  rw [hhit]
  refine exists_congr fun px => exists_congr fun py => ?_
  rw [hpixel, and_comm]
  refine and_congr_right fun hset => ?_
  rw [hset, Bool.true_xor, Bool.not_eq_false', decide_eq_true_eq]

/-- Settles O37: the two cases of the range check, the pixels by `drawSprite_spec` and VF by `drawSprite_hit_iff`. -/
theorem drawTogglesTheSprite : Obligations.DrawTogglesTheSprite := by
  unfold Obligations.DrawTogglesTheSprite
  refine ⟨rowDecodes_of_getElem? 22 rfl, fun x y n s hn => ⟨exec_drw_outOfMemory x y, fun hmem => ?_⟩⟩
  have hn' : n ≤ 32 := hn.trans (by decide)
  obtain ⟨hpixel, _⟩ := drawSprite_spec x y hn' s
  have hhit := drawSprite_hit_iff x y hn' s
  refine ⟨_, exec_drw_inMemory x y hmem, ?under, ?outside, ?unset, ?kept, rfl, ?regs, rfl, BitVec.toNat_add s.pc 2,
    ?frame⟩
  case under => exact fun px py hu => (hpixel px py).trans (by rw [decide_eq_true hu, Bool.xor_true])
  case outside => exact fun px py hu => (hpixel px py).trans (by rw [decide_eq_false hu, Bool.xor_false])
  case unset =>
    intro hunset
    simpa using (collisionFlag_eq_one_iff _).2 (hhit.2 hunset)
  case kept =>
    intro hkept
    have hmiss : (drawSprite x y n s).hit = false := Bool.eq_false_iff.2 (mt hhit.1 hkept)
    simp [hmiss, collisionFlag, flagByte]
  case regs =>
    intro r hr
    simp [hr]
  case frame => simp [SameMemory, SameStack, SameTimers, SameRest]

/-- Settles O39: the read-outs are fields of the state, and CHG is what the tick drew (`changedFlagReportsTheTick`). -/
theorem readOutsReportTheState : Obligations.ReadOutsReportTheState := by
  unfold Obligations.ReadOutsReportTheState
  intro s
  refine ⟨fun _ _ => rfl, rfl, ?sound, fun inp t hrun h => (changedFlagReportsTheTick inp s t hrun h).2⟩
  case sound => exact bne_iff_ne.trans BitVec.toNat_inj.not.symm

/-! ### The keys (44_keys_timers.md R220 to R223) -/

theorem skipOnKey_above {op : Word} {x : Reg} {want : Bool} {s : State} (h : 0x0F < (s.getV x).toNat) :
    skipOnKey op x want s = .next (s.withFault .keyOutOfRange op 0 (s.getV x)) := by
  rcases skipOnKey_cases op x want s with ⟨k, hk, _⟩ | ⟨hs, _⟩
  · have := k.isLt
    omega
  · exact hs

theorem skipOnKey_key {op : Word} {x : Reg} {want : Bool} {s : State} {k : Key} (h : (s.getV x).toNat = k.val) :
    skipOnKey op x want s = skipIf (s.input.keys.get k == want) s := by
  rcases skipOnKey_cases op x want s with ⟨j, hj, hs⟩ | ⟨_, hv⟩
  · rw [hs, show j = k from Fin.ext (hj.trans h), TickInput.down]
  · have := k.isLt
    omega

/-- On a key operand a key skip moves the pc as the key is up or down. -/
theorem skipOnKey_moves_pc (op : Word) (want : Bool) {x : Reg} {s : State} {k : Key} (h : (s.getV x).toNat = k.val) :
    ∃ t, skipOnKey op x want s = .next t ∧ OnlyPc s t ∧ (s.input.keys.get k = want → Skip s t) ∧
      (s.input.keys.get k = !want → Next s t) := by
  obtain ⟨t, ht, honly, hskip, hnext⟩ := skipIf_moves_pc (beq_iff_eq (a := s.input.keys.get k) (b := want)) s
  refine ⟨t, (skipOnKey_key h).trans ht, honly, hskip, fun hk => hnext ?_⟩
  rw [hk]
  exact Bool.not_ne_self want

/-- Settles O40: the fault above 0x0F, and the skip on the key of the tick. -/
theorem keySkipsTestTheTicksKeys : Obligations.KeySkipsTestTheTicksKeys := by
  unfold Obligations.KeySkipsTestTheTicksKeys
  refine ⟨rowDecodes_of_getElem? 23 rfl, rowDecodes_of_getElem? 24 rfl, fun x s => ⟨fun h => ?above, fun k h => ?key⟩⟩
  case above => exact ⟨skipOnKey_above h, skipOnKey_above h⟩
  case key => exact ⟨skipOnKey_moves_pc _ true h, skipOnKey_moves_pc _ false h⟩

/-- With a key drawn `Fx0A` is `result` with its code. -/
theorem exec_ldVxK_drawn {x : Reg} {s : State} {k : Key} (h : s.input.drawnKey = some k) :
    exec (.ldVxK x) s = result x (keyByte k) s := by
  rw [exec, execLdVxK, h, result, finish_eq]

/-- Every key that is down is the one drawn, for some draw (44_keys_timers.md R223, decision D12). -/
theorem exists_pick_drawnKey {inp : TickInput} {k : Key} (h : inp.keys.get k = true) :
    ∃ pick, { inp with pick := pick }.drawnKey = some k := by
  have hmem : k ∈ inp.pressed := List.mem_filter.2 ⟨List.mem_finRange k, h⟩
  obtain ⟨pick, hlt, hget⟩ := List.mem_iff_getElem.1 hmem
  refine ⟨pick, ?_⟩
  change inp.pressed[pick % inp.pressed.length]? = some k
  rw [Nat.mod_eq_of_lt hlt, List.getElem?_eq_getElem hlt, hget]

theorem keyByte_toNat (k : Key) : (keyByte k).toNat = k.val :=
  Nat.mod_eq_of_lt (Nat.lt_trans k.isLt (by decide))

/-- Settles O41: no key is drawn when none is down, a key that is down otherwise, and each of those for some draw. -/
theorem keyWaitStoresAPressedKey : Obligations.KeyWaitStoresAPressedKey := by
  unfold Obligations.KeyWaitStoresAPressedKey
  refine ⟨rowDecodes_of_getElem? 26 rfl, fun x s => ⟨?waits, ?stores, ?reaches⟩⟩
  case waits => exact fun h exit => exec_ldVxK_noKey (s := s.withExit exit) h x
  case stores =>
    intro h
    obtain ⟨k, hdrawn, hdown⟩ := drawnKey_some h
    obtain ⟨t, ht, hwrites⟩ := result_writes x (keyByte k) s
    exact ⟨k, t, hdown, (exec_ldVxK_drawn hdrawn).trans ht, hwrites⟩
  case reaches =>
    intro k hk
    obtain ⟨pick, hdrawn⟩ := exists_pick_drawnKey hk
    obtain ⟨t, ht, hdest, _⟩ := result_writes x (keyByte k) (s.withPick pick)
    exact ⟨pick, t, (exec_ldVxK_drawn (s := s.withPick pick) hdrawn).trans ht, by rw [hdest, keyByte_toNat]⟩

end Sys2Proof.Machine
end

section
/-! PROOFS. What the host's decrements do to a running core's timers, that a step does not read the inputs of the last
tick, and the state after construct(); from them the statements of 60_exceptions.md on the timers and of 10_state.md on
the step, the inputs and the reset values. -/

namespace Sys2Proof.Machine

/-! ### The timers (60_exceptions.md R250 to R252) -/

theorem decreaseTimers_st {s : State} (hrun : s.running) : (decreaseTimers s).st = countDown s.st := by
  have hlive : s.halted = false := Option.isSome_eq_false_iff.2 (Option.isNone_iff_eq_none.2 hrun)
  simp [decreaseTimers, hlive]

@[simp] theorem decreaseTimers_flt (s : State) : (decreaseTimers s).flt = s.flt := by
  unfold decreaseTimers
  split <;> rfl

theorem decreaseTimersBy_counts (n : Nat) {s : State} (hrun : s.running) :
    (decreaseTimersBy n s).dt.toNat = s.dt.toNat - n ∧ (decreaseTimersBy n s).st.toNat = s.st.toNat - n := by
  induction n generalizing s with
  | zero => exact ⟨rfl, rfl⟩
  | succ n ih =>
    obtain ⟨hdt, hst⟩ := ih ((decreaseTimers_flt s).trans hrun)
    rw [decreaseTimersBy, hdt, hst, decreaseTimers_dt hrun, decreaseTimers_st hrun, countDown_toNat, countDown_toNat]
    omega

theorem decreaseTimersBy_halted (n : Nat) {s : State} (h : ¬ s.running) : decreaseTimersBy n s = s := by
  induction n with
  | zero => rfl
  | succ n ih => rw [decreaseTimersBy, decreaseTimers_halted h, ih]

/-- Settles O43: the two timers by induction on the number of decrements, which write nothing else. -/
theorem timersCountDownToZero : Obligations.TimersCountDownToZero := by
  unfold Obligations.TimersCountDownToZero
  intro n s
  refine ⟨decreaseTimersBy_counts n, decreaseTimersBy_halted n, ?_⟩
  obtain ⟨dt, st, h⟩ := decreaseTimersBy_eq n s
  rw [h]
  rfl

theorem step_running {s : State} (hrun : s.running) : step s = tick (nextHostTick s).input (beforeTick s) := by
  rcases step_cases s with ⟨hhalt, _⟩ | ⟨_, h⟩
  · exact absurd hrun hhalt
  · exact h

/-- Settles O44: the host's next tick and the decrements before it, by the mode and the schedule. -/
theorem timerModesFixTheCadence : Obligations.TimerModesFixTheCadence := by
  unfold Obligations.TimerModesFixTheCadence
  intro s hrun
  rw [step_running hrun]
  refine ⟨?coupled, ?scheduled, ?free⟩
  case coupled =>
    intro hmode
    rw [beforeTick_of_coupled hmode]
  case scheduled =>
    intro hmode n inp rest hpending
    simp only [beforeTick, decrementsBefore, hmode, nextHostTick, consumeHostTick, hpending]
  case free =>
    intro hmode hpending
    simp only [beforeTick, decrementsBefore, hmode, nextHostTick, consumeHostTick, hpending, freeHostTick]

/-! ### The step and the inputs (10_state.md R34, R60) -/

/-- Settles O8: `step_eq_exec`, and what the host's decrements and the start of the tick write. -/
theorem stepRunsTheDecodedInstruction : Obligations.StepRunsTheDecodedInstruction := by
  unfold Obligations.StepRunsTheDecodedInstruction
  intro s i hrun hpc hd
  refine ⟨step_eq_exec hrun hpc hd, ?_⟩
  rintro t rfl
  obtain ⟨dt, st, pending, draws, h⟩ := beforeTick_eq s
  rw [h]
  exact ⟨fun _ => rfl, rfl, rfl, rfl, ⟨rfl, rfl⟩, rfl, rfl, hrun, rfl, rfl⟩

/-- The state with other arguments of the last tick. -/
def State.withInput (inp : TickInput) (s : State) : State := { s with input := inp }

theorem decreaseTimers_withInput (inp : TickInput) (s : State) :
    decreaseTimers (s.withInput inp) = (decreaseTimers s).withInput inp := by
  have hhalted : (s.withInput inp).halted = s.halted := rfl
  rw [decreaseTimers, decreaseTimers, hhalted]
  split <;> rfl

theorem decreaseTimersBy_withInput (n : Nat) (inp : TickInput) (s : State) :
    decreaseTimersBy n (s.withInput inp) = (decreaseTimersBy n s).withInput inp := by
  induction n generalizing s with
  | zero => rfl
  | succ n ih => rw [decreaseTimersBy, decreaseTimers_withInput, ih, decreaseTimersBy]

theorem consumeHostTick_withInput (inp : TickInput) (s : State) :
    consumeHostTick (s.withInput inp) = (consumeHostTick s).withInput inp := by
  cases h : s.pending <;> simp only [consumeHostTick, State.withInput, h]

theorem beforeTick_withInput (inp : TickInput) (s : State) :
    beforeTick (s.withInput inp) = (beforeTick s).withInput inp := by
  rw [beforeTick, consumeHostTick_withInput, decreaseTimersBy_withInput]
  rfl

/-- A tick of a running core overwrites the last tick's arguments before it does anything else. -/
theorem tick_withInput (inp last : TickInput) {s : State} (hrun : s.running) :
    tick inp (s.withInput last) = tick inp s := by
  have hlive : s.halted = false := Option.isSome_eq_false_iff.2 (Option.isNone_iff_eq_none.2 hrun)
  have hlive' : (s.withInput last).halted = false := hlive
  rw [tick, tick, hlive, hlive']
  rfl

/-- Settles O52: the host's side of a step carries the last arguments along, and the tick overwrites them. -/
theorem noInputIsKeptBetweenTicks : Obligations.NoInputIsKeptBetweenTicks := by
  unfold Obligations.NoInputIsKeptBetweenTicks
  intro s inp hrun
  change step (s.withInput inp) = step s
  have hrun' : (s.withInput inp).running := hrun
  rw [step_running hrun, step_running hrun', beforeTick_withInput, tick_withInput _ _ ((beforeTick_flt s).trans hrun)]
  rfl

/-! ### Reset (10_state.md R36) -/

/-- Settles O53: the reset state is what construct() makes of itself. -/
theorem constructGivesTheResetValues : Obligations.ConstructGivesTheResetValues := by
  unfold Obligations.ConstructGivesTheResetValues
  intro s t ht
  obtain ⟨u, rfl⟩ : ∃ u, t = construct u := by
    rcases ht with h | h
    · exact ⟨s, h⟩
    · exact ⟨State.reset, h⟩
  exact ⟨fun _ => rfl, getV_construct u, rfl, rfl, stack_get_construct u, rfl, rfl, rfl, pixel_construct u, rfl, rfl⟩

end Sys2Proof.Machine
end
